-- ==== Sys2Proof/Word.lean ====
section
/-! DEFINITION. The bit vectors of the block: command words, bytes, single bits, slave addresses
(00_scope.md R8, 30_encoding.md R90). -/

namespace Sys2Proof

/-- A command word `cmd[31:0]` (30_encoding.md R90). -/
abbrev Word := BitVec 32

/-- A byte: 8 bits (00_scope.md R8). -/
abbrev Byte := BitVec 8

/-- One bit (00_scope.md R8). -/
abbrev Bit := BitVec 1

/-- A slave address `addr7` (20_memory.md R61). -/
abbrev Addr7 := BitVec 7

end Sys2Proof
end

