-- ==== Sys2Proof/Syntax.lean ====
section
/-! DEFINITION. The commands of the block, one constructor per row of the opcode table (30_encoding.md R96), and the
micro-operations their lists are made of (30_encoding.md R97). -/

namespace Sys2Proof

/-- The transfer direction of an address+mode byte: `W` = 0, `R` = 1 (00_scope.md R12). -/
inductive Mode where
  | write
  | read
deriving DecidableEq, Repr

/-- The mode as the bit that is sent (00_scope.md R12: "0=write,1=read"). -/
def Mode.bit : Mode → Bit
  | .write => 0#1
  | .read  => 1#1

/-- The mode a bit stands for (00_scope.md R12). -/
def Mode.ofBit (b : Bit) : Mode := if b = 0#1 then .write else .read

/-- The 29 mnemonics (30_encoding.md R96). -/
inductive Opcode where
  | busOpen | busBegin | busRepeatBegin | busEnd | sendAddress | sendByte | receiveByte | sendAck | readAck
  | ee17Init | ee17Read | ee17Write | ee17IsWriteBusy
  | ee12Init | ee12Read | ee12Write | ee12IsWriteBusy
  | rtcInit | rtcRead | rtcWrite | rtcGetClock | rtcSetClock | rtcStopClock | rtcStartClock | rtcCacheGet | rtcCachePut
  | gpxInit | gpxRead | gpxWrite
deriving DecidableEq, Repr

/-- A command with its operands, every operand at exactly the width of its field (30_encoding.md R91, R109). -/
inductive Instr where
  /-- `OPEN(rate)`, 40_bus_engine.md R123 -/
  | busOpen (rate : Byte)
  /-- `BEGIN`, R124 -/
  | busBegin
  /-- `REPEAT_BEGIN`, R125 -/
  | busRepeatBegin
  /-- `END`, R126 -/
  | busEnd
  /-- `SEND_ADDRESS(addr7, mode)`, R127 -/
  | sendAddress (addr : Addr7) (mode : Mode)
  /-- `SEND_BYTE(b)`, R128 -/
  | sendByte (b : Byte)
  /-- `RECEIVE_BYTE`, R129 -/
  | receiveByte
  /-- `SEND_ACK(k)`, R130 -/
  | sendAck (k : Bit)
  /-- `READ_ACK`, R131 -/
  | readAck
  /-- `EE17_INIT(phys)`, 41_eeprom.md R160 -/
  | ee17Init (phys : BitVec 2)
  /-- `EE17_READ(off)`, R161 -/
  | ee17Read (off : BitVec 17)
  /-- `EE17_WRITE(off, data)`, R162 -/
  | ee17Write (off : BitVec 17) (data : Byte)
  /-- `EE17_IS_WRITE_BUSY`, R163 -/
  | ee17IsWriteBusy
  /-- `EE12_INIT(phys)`, R164 -/
  | ee12Init (phys : BitVec 3)
  /-- `EE12_READ(off)`, R165 -/
  | ee12Read (off : BitVec 12)
  /-- `EE12_WRITE(off, data)`, R166 -/
  | ee12Write (off : BitVec 12) (data : Byte)
  /-- `EE12_IS_WRITE_BUSY`, R167 -/
  | ee12IsWriteBusy
  /-- `RTC_INIT(phys)`, 42_rtc.md R180 -/
  | rtcInit (phys : BitVec 3)
  /-- `RTC_READ(reg)`, R181 -/
  | rtcRead (reg : Byte)
  /-- `RTC_WRITE(reg, data)`, R182 -/
  | rtcWrite (reg data : Byte)
  /-- `RTC_GET_CLOCK`, R183 -/
  | rtcGetClock
  /-- `RTC_SET_CLOCK`, R185 -/
  | rtcSetClock
  /-- `RTC_STOP_CLOCK`, R186 -/
  | rtcStopClock
  /-- `RTC_START_CLOCK`, R187 -/
  | rtcStartClock
  /-- `RTC_CACHE_GET(idx)`, R188 -/
  | rtcCacheGet (idx : BitVec 3)
  /-- `RTC_CACHE_PUT(idx, data)`, R189 -/
  | rtcCachePut (idx : BitVec 3) (data : Byte)
  /-- `GPX_INIT(phys)`, 43_gpio_expander.md R200 -/
  | gpxInit (phys : BitVec 3)
  /-- `GPX_READ(reg)`, R201 -/
  | gpxRead (reg : Byte)
  /-- `GPX_WRITE(reg, data)`, R202 -/
  | gpxWrite (reg data : Byte)
deriving DecidableEq, Repr

/-- The mnemonic of a command. -/
def Instr.opcode : Instr → Opcode
  | .busOpen _ => .busOpen
  | .busBegin => .busBegin
  | .busRepeatBegin => .busRepeatBegin
  | .busEnd => .busEnd
  | .sendAddress _ _ => .sendAddress
  | .sendByte _ => .sendByte
  | .receiveByte => .receiveByte
  | .sendAck _ => .sendAck
  | .readAck => .readAck
  | .ee17Init _ => .ee17Init
  | .ee17Read _ => .ee17Read
  | .ee17Write _ _ => .ee17Write
  | .ee17IsWriteBusy => .ee17IsWriteBusy
  | .ee12Init _ => .ee12Init
  | .ee12Read _ => .ee12Read
  | .ee12Write _ _ => .ee12Write
  | .ee12IsWriteBusy => .ee12IsWriteBusy
  | .rtcInit _ => .rtcInit
  | .rtcRead _ => .rtcRead
  | .rtcWrite _ _ => .rtcWrite
  | .rtcGetClock => .rtcGetClock
  | .rtcSetClock => .rtcSetClock
  | .rtcStopClock => .rtcStopClock
  | .rtcStartClock => .rtcStartClock
  | .rtcCacheGet _ => .rtcCacheGet
  | .rtcCachePut _ _ => .rtcCachePut
  | .gpxInit _ => .gpxInit
  | .gpxRead _ => .gpxRead
  | .gpxWrite _ _ => .gpxWrite

/-- The operand `X` of the micro-operation `SA(X, m)` (30_encoding.md R97): the address in the command word, for the Bus Engine
command, or a driver's current slave address register. -/
inductive AddrSrc where
  | word (addr : Addr7)
  | ee17
  | ee12
  | rtc
  | gpx
deriving DecidableEq, Repr

/-- The operand `e` of the micro-operation `SB(e)` (30_encoding.md R97): every expression that a command's list uses. -/
inductive ByteSrc where
  /-- a byte of the command word -/
  | word (b : Byte)
  /-- the parameter `RTC_BASE` -/
  | rtcBase
  /-- the parameter `CH_REG` -/
  | chReg
  /-- `RTCC[i]` -/
  | cache (i : Fin 8)
  /-- `SEQ_TMP | CH_MASK` (42_rtc.md R186) -/
  | tmpHalted
  /-- `SEQ_TMP & ~CH_MASK` (42_rtc.md R187) -/
  | tmpRunning
deriving DecidableEq, Repr

/-- The destination `d` of the micro-operation `RCV -> d` (30_encoding.md R97). -/
inductive Dest where
  | rsp
  | seqTmp
  | cache (i : Fin 8)
deriving DecidableEq, Repr

/-- The micro-operations (30_encoding.md R97): the eight bus primitives with their operands. -/
inductive MicroOp where
  /-- `BEGIN` -/
  | start
  /-- `RBEGIN` -/
  | restart
  /-- `END` -/
  | stop
  /-- `SA(X, m)` -/
  | sa (x : AddrSrc) (m : Mode)
  /-- `SB(e)` -/
  | sb (e : ByteSrc)
  /-- `RCV -> d` -/
  | rcv (d : Dest)
  /-- `ACK(k)` -/
  | ack (k : Bit)
  /-- `RDACK -> RSP` -/
  | rdack
deriving DecidableEq, Repr

end Sys2Proof
end

