-- ==== Sys2Proof/WellFormed.lean ====
section
/-! DEFINITION. Well-formed commands. An `Instr` cannot be ill-formed: each operand has exactly its field's width. What can be
ill-formed is a command as a host writes it, a mnemonic with numbers (30_encoding.md R109); `RawCommand.wf` is the check, and
`RawCommand.toInstr` the command it stands for. -/

namespace Sys2Proof

/-- The operand widths of a command in the order R109 writes them; the widths are those of the formats of R91. -/
def Opcode.operandWidths : Opcode → List Nat
  | .busOpen | .sendByte | .rtcRead | .gpxRead => [8]
  | .busBegin | .busRepeatBegin | .busEnd | .receiveByte | .readAck | .ee17IsWriteBusy | .ee12IsWriteBusy
  | .rtcGetClock | .rtcSetClock | .rtcStopClock | .rtcStartClock => []
  | .sendAddress => [7, 1]
  | .sendAck => [1]
  | .ee17Init => [2]
  | .ee12Init | .rtcInit | .gpxInit | .rtcCacheGet => [3]
  | .rtcWrite | .gpxWrite => [8, 8]
  | .rtcCachePut => [3, 8]
  | .ee17Read => [17]
  | .ee17Write => [17, 8]
  | .ee12Read => [12]
  | .ee12Write => [12, 8]

/-- A command as R109 writes it: a mnemonic and its operands as plain numbers. -/
structure RawCommand where
  op       : Opcode
  operands : List Nat
deriving DecidableEq, Repr

/-- The number of operands is the format's (30_encoding.md R91, R109). -/
def RawCommand.arityOk (r : RawCommand) : Bool :=
  r.operands.length == r.op.operandWidths.length

/-- Every operand fits its field (30_encoding.md R91; 93_implementation_defined.md U12: a wider value is refused, not
truncated). -/
def RawCommand.rangesOk (r : RawCommand) : Bool :=
  (r.operands.zip r.op.operandWidths).all fun p => decide (p.1 < 2 ^ p.2)

/-- The command can be written as a word. -/
def RawCommand.wf (r : RawCommand) : Bool := r.arityOk && r.rangesOk

/-- A command written as R109 writes it. -/
def Instr.toRaw (i : Instr) : RawCommand :=
  ⟨i.opcode, match i with
    | .busOpen rate => [rate.toNat]
    | .busBegin | .busRepeatBegin | .busEnd | .receiveByte | .readAck | .ee17IsWriteBusy | .ee12IsWriteBusy
    | .rtcGetClock | .rtcSetClock | .rtcStopClock | .rtcStartClock => []
    | .sendAddress addr mode => [addr.toNat, mode.bit.toNat]
    | .sendByte b => [b.toNat]
    | .sendAck k => [k.toNat]
    | .ee17Init phys => [phys.toNat]
    | .ee17Read off => [off.toNat]
    | .ee17Write off data => [off.toNat, data.toNat]
    | .ee12Init phys => [phys.toNat]
    | .ee12Read off => [off.toNat]
    | .ee12Write off data => [off.toNat, data.toNat]
    | .rtcInit phys => [phys.toNat]
    | .rtcRead reg => [reg.toNat]
    | .rtcWrite reg data => [reg.toNat, data.toNat]
    | .rtcCacheGet idx => [idx.toNat]
    | .rtcCachePut idx data => [idx.toNat, data.toNat]
    | .gpxInit phys => [phys.toNat]
    | .gpxRead reg => [reg.toNat]
    | .gpxWrite reg data => [reg.toNat, data.toNat]⟩

/-- The command a mnemonic with these numbers is, if it is well-formed (30_encoding.md R109). -/
def RawCommand.toInstr (r : RawCommand) : Option Instr :=
  if r.wf then
    match r.op, r.operands with
    | .busOpen, [rate] => some (.busOpen (.ofNat 8 rate))
    | .busBegin, [] => some .busBegin
    | .busRepeatBegin, [] => some .busRepeatBegin
    | .busEnd, [] => some .busEnd
    | .sendAddress, [addr, mode] => some (.sendAddress (.ofNat 7 addr) (.ofBit (.ofNat 1 mode)))
    | .sendByte, [b] => some (.sendByte (.ofNat 8 b))
    | .receiveByte, [] => some .receiveByte
    | .sendAck, [k] => some (.sendAck (.ofNat 1 k))
    | .readAck, [] => some .readAck
    | .ee17Init, [phys] => some (.ee17Init (.ofNat 2 phys))
    | .ee17Read, [off] => some (.ee17Read (.ofNat 17 off))
    | .ee17Write, [off, data] => some (.ee17Write (.ofNat 17 off) (.ofNat 8 data))
    | .ee17IsWriteBusy, [] => some .ee17IsWriteBusy
    | .ee12Init, [phys] => some (.ee12Init (.ofNat 3 phys))
    | .ee12Read, [off] => some (.ee12Read (.ofNat 12 off))
    | .ee12Write, [off, data] => some (.ee12Write (.ofNat 12 off) (.ofNat 8 data))
    | .ee12IsWriteBusy, [] => some .ee12IsWriteBusy
    | .rtcInit, [phys] => some (.rtcInit (.ofNat 3 phys))
    | .rtcRead, [reg] => some (.rtcRead (.ofNat 8 reg))
    | .rtcWrite, [reg, data] => some (.rtcWrite (.ofNat 8 reg) (.ofNat 8 data))
    | .rtcGetClock, [] => some .rtcGetClock
    | .rtcSetClock, [] => some .rtcSetClock
    | .rtcStopClock, [] => some .rtcStopClock
    | .rtcStartClock, [] => some .rtcStartClock
    | .rtcCacheGet, [idx] => some (.rtcCacheGet (.ofNat 3 idx))
    | .rtcCachePut, [idx, data] => some (.rtcCachePut (.ofNat 3 idx) (.ofNat 8 data))
    | .gpxInit, [phys] => some (.gpxInit (.ofNat 3 phys))
    | .gpxRead, [reg] => some (.gpxRead (.ofNat 8 reg))
    | .gpxWrite, [reg, data] => some (.gpxWrite (.ofNat 8 reg) (.ofNat 8 data))
    | _, _ => none
  else none

end Sys2Proof
end

