-- ==== Sys2Proof/Decode.lean ====
section
/-! DEFINITION. Decoding and encoding of command words (30_encoding.md R90 to R92, R96, R107). Decoding is total on all 2^32
words; an illegal word is rejected by name. -/

namespace Sys2Proof

/-- Why a word is no command (30_encoding.md R107). Either way the block raises `ILLEGAL_CMD`. -/
inductive DecodeError where
  /-- `cmd[31:26]` is no opcode of R96. -/
  | unknownOpcode
  /-- A must-be-zero bit of the format is 1. -/
  | mustBeZeroSet
deriving DecidableEq, Repr

/-- The 6-bit opcode `op` of a command (30_encoding.md R96, first column). -/
def Opcode.code : Opcode → BitVec 6
  | .busOpen => 0x01#6
  | .busBegin => 0x02#6
  | .busRepeatBegin => 0x03#6
  | .busEnd => 0x04#6
  | .sendAddress => 0x05#6
  | .sendByte => 0x06#6
  | .receiveByte => 0x07#6
  | .sendAck => 0x08#6
  | .readAck => 0x09#6
  | .ee17Init => 0x10#6
  | .ee17Read => 0x11#6
  | .ee17Write => 0x12#6
  | .ee17IsWriteBusy => 0x13#6
  | .ee12Init => 0x14#6
  | .ee12Read => 0x15#6
  | .ee12Write => 0x16#6
  | .ee12IsWriteBusy => 0x17#6
  | .rtcInit => 0x18#6
  | .rtcRead => 0x19#6
  | .rtcWrite => 0x1A#6
  | .rtcGetClock => 0x1B#6
  | .rtcSetClock => 0x1C#6
  | .rtcStopClock => 0x1D#6
  | .rtcStartClock => 0x1E#6
  | .rtcCacheGet => 0x1F#6
  | .rtcCachePut => 0x20#6
  | .gpxInit => 0x24#6
  | .gpxRead => 0x25#6
  | .gpxWrite => 0x26#6

/-- The row of R96 with a given opcode, if there is one. -/
def Opcode.ofCode (c : BitVec 6) : Option Opcode :=
  match c.toNat with
  | 0x01 => some .busOpen
  | 0x02 => some .busBegin
  | 0x03 => some .busRepeatBegin
  | 0x04 => some .busEnd
  | 0x05 => some .sendAddress
  | 0x06 => some .sendByte
  | 0x07 => some .receiveByte
  | 0x08 => some .sendAck
  | 0x09 => some .readAck
  | 0x10 => some .ee17Init
  | 0x11 => some .ee17Read
  | 0x12 => some .ee17Write
  | 0x13 => some .ee17IsWriteBusy
  | 0x14 => some .ee12Init
  | 0x15 => some .ee12Read
  | 0x16 => some .ee12Write
  | 0x17 => some .ee12IsWriteBusy
  | 0x18 => some .rtcInit
  | 0x19 => some .rtcRead
  | 0x1A => some .rtcWrite
  | 0x1B => some .rtcGetClock
  | 0x1C => some .rtcSetClock
  | 0x1D => some .rtcStopClock
  | 0x1E => some .rtcStartClock
  | 0x1F => some .rtcCacheGet
  | 0x20 => some .rtcCachePut
  | 0x24 => some .gpxInit
  | 0x25 => some .gpxRead
  | 0x26 => some .gpxWrite
  | _ => none

/-- The column `match` of R96: `op << 26`. -/
def Opcode.matchBits (o : Opcode) : Word := o.code.setWidth 32 <<< 26

/-- The column `mask` of R96: 1 in every opcode bit and every must-be-zero bit. -/
def Opcode.mask : Opcode → Word
  | .busOpen | .sendByte | .rtcRead | .gpxRead => 0xFFFFFF00#32
  | .busBegin | .busRepeatBegin | .busEnd | .receiveByte | .readAck | .ee17IsWriteBusy | .ee12IsWriteBusy
  | .rtcGetClock | .rtcSetClock | .rtcStopClock | .rtcStartClock => 0xFFFFFFFF#32
  | .sendAddress => 0xFFFFFE80#32
  | .sendAck => 0xFFFFFFFE#32
  | .ee17Init => 0xFFFFFFFC#32
  | .ee12Init | .rtcInit | .gpxInit | .rtcCacheGet => 0xFFFFFFF8#32
  | .rtcWrite | .gpxWrite => 0xFFFF0000#32
  | .rtcCachePut => 0xFFFFF800#32
  | .ee17Read => 0xFE0000FF#32
  | .ee17Write => 0xFE000000#32
  | .ee12Read => 0xFFF000FF#32
  | .ee12Write => 0xFFF00000#32

/-- The command of a row of R96 with the operand fields of its format (30_encoding.md R91) taken from the word. -/
def Opcode.operandsOf (o : Opcode) (w : Word) : Instr :=
  match o with
  | .busOpen => .busOpen (w.extractLsb' 0 8)
  | .busBegin => .busBegin
  | .busRepeatBegin => .busRepeatBegin
  | .busEnd => .busEnd
  | .sendAddress => .sendAddress (w.extractLsb' 0 7) (.ofBit (w.extractLsb' 8 1))
  | .sendByte => .sendByte (w.extractLsb' 0 8)
  | .receiveByte => .receiveByte
  | .sendAck => .sendAck (w.extractLsb' 0 1)
  | .readAck => .readAck
  | .ee17Init => .ee17Init (w.extractLsb' 0 2)
  | .ee17Read => .ee17Read (w.extractLsb' 8 17)
  | .ee17Write => .ee17Write (w.extractLsb' 8 17) (w.extractLsb' 0 8)
  | .ee17IsWriteBusy => .ee17IsWriteBusy
  | .ee12Init => .ee12Init (w.extractLsb' 0 3)
  | .ee12Read => .ee12Read (w.extractLsb' 8 12)
  | .ee12Write => .ee12Write (w.extractLsb' 8 12) (w.extractLsb' 0 8)
  | .ee12IsWriteBusy => .ee12IsWriteBusy
  | .rtcInit => .rtcInit (w.extractLsb' 0 3)
  | .rtcRead => .rtcRead (w.extractLsb' 0 8)
  | .rtcWrite => .rtcWrite (w.extractLsb' 8 8) (w.extractLsb' 0 8)
  | .rtcGetClock => .rtcGetClock
  | .rtcSetClock => .rtcSetClock
  | .rtcStopClock => .rtcStopClock
  | .rtcStartClock => .rtcStartClock
  | .rtcCacheGet => .rtcCacheGet (w.extractLsb' 0 3)
  | .rtcCachePut => .rtcCachePut (w.extractLsb' 8 3) (w.extractLsb' 0 8)
  | .gpxInit => .gpxInit (w.extractLsb' 0 3)
  | .gpxRead => .gpxRead (w.extractLsb' 0 8)
  | .gpxWrite => .gpxWrite (w.extractLsb' 8 8) (w.extractLsb' 0 8)

/-- `decode(cmd)` (30_encoding.md R92): the row with the word's opcode, then the test `cmd & mask = match`. -/
def decode (w : Word) : Except DecodeError Instr :=
  match Opcode.ofCode (w.extractLsb' 26 6) with
  | none => .error .unknownOpcode
  | some o => if w &&& o.mask = o.matchBits then .ok (o.operandsOf w) else .error .mustBeZeroSet

/-- A word's operand field with its least significant bit at position `lo` (30_encoding.md R91). -/
def fieldAt {n : Nat} (v : BitVec n) (lo : Nat) : Word := v.setWidth 32 <<< lo

/-- The operand fields of a command at their places in the word, all other bits 0 (30_encoding.md R91). -/
def Instr.operandBits : Instr → Word
  | .busOpen rate => fieldAt rate 0
  | .busBegin => 0#32
  | .busRepeatBegin => 0#32
  | .busEnd => 0#32
  | .sendAddress addr mode => fieldAt mode.bit 8 ||| fieldAt addr 0
  | .sendByte b => fieldAt b 0
  | .receiveByte => 0#32
  | .sendAck k => fieldAt k 0
  | .readAck => 0#32
  | .ee17Init phys => fieldAt phys 0
  | .ee17Read off => fieldAt off 8
  | .ee17Write off data => fieldAt off 8 ||| fieldAt data 0
  | .ee17IsWriteBusy => 0#32
  | .ee12Init phys => fieldAt phys 0
  | .ee12Read off => fieldAt off 8
  | .ee12Write off data => fieldAt off 8 ||| fieldAt data 0
  | .ee12IsWriteBusy => 0#32
  | .rtcInit phys => fieldAt phys 0
  | .rtcRead reg => fieldAt reg 0
  | .rtcWrite reg data => fieldAt reg 8 ||| fieldAt data 0
  | .rtcGetClock => 0#32
  | .rtcSetClock => 0#32
  | .rtcStopClock => 0#32
  | .rtcStartClock => 0#32
  | .rtcCacheGet idx => fieldAt idx 0
  | .rtcCachePut idx data => fieldAt idx 8 ||| fieldAt data 0
  | .gpxInit phys => fieldAt phys 0
  | .gpxRead reg => fieldAt reg 0
  | .gpxWrite reg data => fieldAt reg 8 ||| fieldAt data 0

/-- The word of a command: its opcode in `cmd[31:26]`, its operands in their fields, every other bit 0 (30_encoding.md R90). -/
def encode (i : Instr) : Word := i.opcode.matchBits ||| i.operandBits

/-- The command the decoder reads from a word whose bits are `w`, bit 0 the least significant of the one 32-bit word a command
has (30_encoding.md R90: "All commands have this one length"); none where it rejects. -/
def decodeTableWord (nbits w : Nat) : Option Instr :=
  match decode ((BitVec.ofNat nbits w).setWidth 32) with
  | .ok i => some i
  | .error _ => none

end Sys2Proof
end

