-- ==== Sys2Proof/Config.lean ====
section
/-! DEFINITION. The parameters of the block (00_scope.md R6) and the free values: what the spec leaves open.
An `opaque` constant has no body, so no proof can see its value. -/

namespace Sys2Proof

/-- One answer of the environment, drawn once per sent or received byte: `ack` is the bit a slave (or nobody) puts in the
acknowledge slot (`env_ack()`), `data` the byte it puts on the bus during a master receive (`env_data()`); 00_scope.md R10,
20_memory.md R70. A draw uses the one of the two that its micro-operation asks for. -/
structure Answer where
  ack  : Bit
  data : Byte
deriving DecidableEq, Repr, Inhabited

/-- The parameters of 00_scope.md R6. State carries them beside the registers and no step writes them (log 8).
The defaults written here are the defaults of R6, which the spec marks as general knowledge: PRESUMED (log 8). -/
structure Config where
  /-- `DIV_WIDTH`, width in bits of the divisor register `DIV`: OPEN, no default. -/
  divWidth  : Nat
  /-- `RATE_TABLE` as a list of (rate code, divisor): OPEN, no default. A code whose divisor does not fit `divWidth` bits is
  outside the domain (`Machine.divisorOf`, log 9). -/
  rateTable : List (Byte × Nat)
  /-- `FAM_EE`, 4-bit device family code of the EEPROM-style devices. -/
  famEE     : BitVec 4 := 0b1010#4
  /-- `FAM_RTC`, 4-bit device family code of the RTC. -/
  famRTC    : BitVec 4 := 0b1101#4
  /-- `FAM_GPX`, 4-bit device family code of the GPIO expander. -/
  famGPX    : BitVec 4 := 0b0100#4
  /-- `RTC_BASE`, register index sent by `RTC_GET_CLOCK` and `RTC_SET_CLOCK`. -/
  rtcBase   : Byte := 0x00#8
  /-- `CH_REG`, index of the RTC register that holds the clock-halt bit. -/
  chReg     : Byte := 0x00#8
  /-- The number of the one bit that `CH_MASK` has set (R6: "8-bit mask with exactly one bit set"; log 11). -/
  chBit     : Fin 8 := 7
deriving DecidableEq, Repr

/-- `DIV_WIDTH` of the block at hand: OPEN in R6, so uninterpreted (log 8). -/
opaque Config.openDivWidth : Nat

/-- `RATE_TABLE` of the block at hand: OPEN in R6, so uninterpreted (log 8). -/
opaque Config.openRateTable : List (Byte × Nat)

/-- The parameters a run from reset has: R6's defaults where it gives one, uninterpreted where it gives none. -/
def Config.initial : Config where
  divWidth  := Config.openDivWidth
  rateTable := Config.openRateTable

/-- The level of `PORT_IDLE` at reset: "It is not a register of the block and has no reset value" (10_state.md R40), so a free
value (log 6). -/
opaque Config.portIdleAtReset : Bool

/-- The environment's answer to draw number `n` of a run when State lists no answer for it: a free value (20_memory.md R70,
log 5). -/
opaque Config.freeAnswer : Nat → Answer

end Sys2Proof
end

