-- ==== Sys2Proof/Machine/State.lean ====
section
/-! DEFINITION. The state of the machine (10_state.md R20 to R50) as plain data, and its value right after reset.
A register that the spec lets hold `⊥` ("unwritten", 00_scope.md R9) is an `Option`: `none` is `⊥`, a value of the register that
the spec itself names and gives it at reset (log 1). -/

namespace Sys2Proof.Machine

/-- `PHASE`, the position of the bus inside a Transaction (10_state.md R23). Codes 6 and 7 are never reached. -/
inductive Phase where
  | free
  | started
  | tx
  | rxReady
  | rxNeedAck
  | rxDone
deriving DecidableEq, Repr

/-- `FAULT`, the fault code (60_exceptions.md R210). Codes 7 to 15 are unused. -/
inductive FaultCode where
  /-- 0, `NONE` -/
  | noFault
  /-- 1, `ILLEGAL_CMD` -/
  | illegalCmd
  /-- 2, `NOT_OPEN` -/
  | notOpen
  /-- 3, `PROTOCOL` -/
  | protocol
  /-- 4, `UNWRITTEN` -/
  | unwritten
  /-- 5, `REENTRY` -/
  | reentry
  /-- 6, `CONFIG` -/
  | config
deriving DecidableEq, Repr

/-- A wire event (00_scope.md R11). -/
inductive WireEvent where
  /-- `S`, START -/
  | start
  /-- `Sr`, RESTART -/
  | restart
  /-- `P`, STOP -/
  | stop
  /-- `TX(b, a)`: the master sent byte `b` and sampled acknowledge bit `a` -/
  | tx (b : Byte) (a : Bit)
  /-- `RX(d)`: the master received byte `d` -/
  | rx (d : Byte)
  /-- `MA(k)`: the master drove the acknowledge slot with `k` -/
  | ma (k : Bit)
deriving DecidableEq, Repr

/-- One move of an agent (10_state.md R20, 70_reset_and_hazards.md R262). -/
inductive Move where
  /-- the host presents a word: `cmd_valid = 1` with `cmd = w` (10_state.md R46) -/
  | present (w : Word)
  /-- the block is scheduled: it tries its next micro-operation (30_encoding.md R99) -/
  | block
  /-- the environment sets the level of `PORT_IDLE` (10_state.md R40) -/
  | portIdle (level : Bool)
  /-- the reset input is 1 in this step (10_state.md R49) -/
  | reset
deriving DecidableEq, Repr

/-- Why a step stops the model. Neither is a fault of the block: the block's own faults are the codes of `FaultCode`, written to
the register `FAULT` in a next state (log 2). Both stand for states that the spec says are never reached (log 14). -/
inductive Fault where
  /-- `BUSY = 1` while `SEQ_CMD` holds `⊥` or a word that is no command. Raised by a block step. Safe: the model stops, and no
  step reaches such a state. -/
  | noCommandInProgress
  /-- `BUSY = 1` while `SEQ_PC` is past the end of the list of the command in `SEQ_CMD`. Raised by a micro-step. Safe: the model
  stops, and no step reaches such a state. -/
  | pcPastList
deriving DecidableEq, Repr

/-- Why an instruction has no meaning. -/
inductive Refusal where
  /-- The instruction is not modelled yet. Raised only by an arm of `exec`. Safe. No arm raises it. -/
  | notModelled (mnemonic : String)
deriving DecidableEq, Repr

/-- The registers of the block (10_state.md R38) with the parameters and the outside world's moves and answers. -/
structure State where
  /-- the parameters of 00_scope.md R6; no step writes them (log 8) -/
  cfg       : Config
  /-- `OPENF`, R21 -/
  openf     : Bool
  /-- `DIV`, R22: below `2 ^ cfg.divWidth` (log 10) -/
  div       : Option Nat
  /-- `PHASE`, R23 -/
  phase     : Phase
  /-- `ACKL`, R24 -/
  ackl      : Option Bit
  /-- `RXB`, R25 -/
  rxb       : Option Byte
  /-- `BUSY`, R26 -/
  busy      : Bool
  /-- `SEQ_CMD`, R27 -/
  seqCmd    : Option Word
  /-- `SEQ_PC`, R28 -/
  seqPc     : BitVec 6
  /-- `SEQ_TMP`, R29 -/
  seqTmp    : Option Byte
  /-- `RSP`, R30 -/
  rsp       : Option Byte
  /-- `FAULT`, R31 -/
  fault     : FaultCode
  /-- `FAULT_INFO`, R31 -/
  faultInfo : Option Word
  /-- `EE17_SA`, R32 -/
  ee17Sa    : Option Addr7
  /-- `EE12_SA`, R33 -/
  ee12Sa    : Option Addr7
  /-- `RTC_SA`, R34 -/
  rtcSa     : Option Addr7
  /-- `GPX_SA`, R35 -/
  gpxSa     : Option Addr7
  /-- `RTCC[0..7]`, R36 -/
  rtcc      : Vector (Option Byte) 8
  /-- `TRACE`, R37, oldest event first -/
  trace     : List WireEvent
  /-- `SCL_O`, R48: the level once the waveform of the last event has run to its end (log 12) -/
  sclO      : Bit
  /-- `SDA_O`, R48, likewise -/
  sdaO      : Bit
  /-- `PORT_IDLE`, the environment's level, R40 -/
  portIdle  : Bool
  /-- the environment's next answers, the next one first (20_memory.md R70, log 5) -/
  answers   : List Answer
  /-- how many answers have been drawn (log 5) -/
  draws     : Nat
  /-- the moves still to come, the next one first (70_reset_and_hazards.md R262, logs 3 and 4) -/
  sched     : List Move
deriving DecidableEq, Repr

/-- The state right after reset (10_state.md R50, 70_reset_and_hazards.md R240): the values of R50; parameters as
`Config.initial`, `PORT_IDLE` free, no answer and no move listed (logs 3 to 8). -/
def State.reset : State where
  cfg       := Config.initial
  openf     := false
  div       := none
  phase     := .free
  ackl      := none
  rxb       := none
  busy      := false
  seqCmd    := none
  seqPc     := 0#6
  seqTmp    := none
  rsp       := none
  fault     := .noFault
  faultInfo := none
  ee17Sa    := none
  ee12Sa    := none
  rtcSa     := none
  gpxSa     := none
  rtcc      := #v[none, none, none, none, none, none, none, none]
  trace     := []
  sclO      := 1#1
  sdaO      := 1#1
  portIdle  := Config.portIdleAtReset
  answers   := []
  draws     := 0
  sched     := []

end Sys2Proof.Machine
end

