-- ==== Sys2Proof/Machine/Flags.lean ====
section
/-! DEFINITION. The status values: codes of `PHASE` and `FAULT`, the legality table of 40_bus_engine.md R122, and the
acknowledge bit as a response (10_state.md R39: the block has no arithmetic condition codes). -/

namespace Sys2Proof.Machine

/-- The 3-bit code of `PHASE` (10_state.md R23). -/
def Phase.code : Phase → BitVec 3
  | .free => 0#3
  | .started => 1#3
  | .tx => 2#3
  | .rxReady => 3#3
  | .rxNeedAck => 4#3
  | .rxDone => 5#3

/-- The 4-bit code of `FAULT` (60_exceptions.md R210). -/
def FaultCode.code : FaultCode → BitVec 4
  | .noFault => 0#4
  | .illegalCmd => 1#4
  | .notOpen => 2#4
  | .protocol => 3#4
  | .unwritten => 4#4
  | .reentry => 5#4
  | .config => 6#4

/-- The *legal* column of 40_bus_engine.md R122. -/
def legalPhase (u : MicroOp) (p : Phase) : Bool :=
  match u with
  | .start => p == .free
  | .restart => p == .tx || p == .rxDone
  | .stop => p == .tx || p == .rxDone
  | .sa _ _ => p == .started
  | .sb _ => p == .tx
  | .rcv _ => p == .rxReady
  | .ack _ => p == .rxNeedAck
  | .rdack => p != .rxNeedAck

/-- `PHASE` after an address+mode byte (40_bus_engine.md R122, R127). -/
def phaseAfterAddress : Mode → Phase
  | .write => .tx
  | .read => .rxReady

/-- `PHASE` after the master's acknowledge `k` (40_bus_engine.md R122, R130): 0 is ACK, 1 is NACK. -/
def phaseAfterAck (k : Bit) : Phase := if k = 0#1 then .rxReady else .rxDone

/-- A bit result as a response byte, `0b0000000 ‖ bit` (30_encoding.md R94). -/
def bitResponse (a : Bit) : Byte := 0#7 ++ a

end Sys2Proof.Machine
end

