-- ==== Sys2Proof/Machine/Operands.lean ====
section
/-! DEFINITION. Operand assembly (30_encoding.md R103 to R105), the operand forms of the micro-operations (R97) with their reads
of registers that may hold `⊥`, and the values the parameters give (00_scope.md R6). -/

namespace Sys2Proof.Machine

/-- `RATE_TABLE(rate)`: none where the code is outside the domain, which is so where no divisor is listed for it and where "the
divisor is out of representable range" (00_scope.md R6, log 9). -/
def divisorOf (c : Config) (rate : Byte) : Option Nat :=
  (c.rateTable.lookup rate).filter fun d => decide (d < 2 ^ c.divWidth)

/-- `CH_MASK`: the 8-bit mask with exactly the clock-halt bit set (00_scope.md R6). -/
def chMask (c : Config) : Byte := 1#8 <<< c.chBit.val

/-- The address+mode byte `addr7 ‖ mode` (30_encoding.md R103). -/
def addressByte (addr : Addr7) (m : Mode) : Byte := addr ++ m.bit

/-- `FAM_X ‖ field`, a slave address (30_encoding.md R104, 20_memory.md R61). -/
def slaveAddress (family : BitVec 4) (field : BitVec 3) : Addr7 := family ++ field

/-- The field of the 17-bit EEPROM's slave address: the bank bit over the 2-bit physical address (20_memory.md R61). -/
def bankField (bank : Bit) (phys : BitVec 2) : BitVec 3 := bank ++ phys

/-- `off[16]`, the bank bit of a 17-bit offset (30_encoding.md R105). -/
def bank17 (off : BitVec 17) : Bit := off.extractLsb' 16 1

/-- `off[15:8]`, the first offset byte of the 17-bit variant (30_encoding.md R105). -/
def hi17 (off : BitVec 17) : Byte := off.extractLsb' 8 8

/-- `off[7:0]`, the second offset byte of the 17-bit variant (30_encoding.md R105). -/
def lo17 (off : BitVec 17) : Byte := off.extractLsb' 0 8

/-- `0b0000 ‖ off[11:8]`, the first offset byte of the 12-bit variant (30_encoding.md R105). -/
def hi12 (off : BitVec 12) : Byte := 0#4 ++ off.extractLsb' 8 4

/-- `off[7:0]`, the second offset byte of the 12-bit variant (30_encoding.md R105). -/
def lo12 (off : BitVec 12) : Byte := off.extractLsb' 0 8

/-- `sa[6:3] ‖ bank ‖ sa[1:0]`: the slave address with its bank bit recomputed (41_eeprom.md R161). -/
def withBank (sa : Addr7) (bank : Bit) : Addr7 := sa.extractLsb' 3 4 ++ bankField bank (sa.extractLsb' 0 2)

/-- `RTCC[i]` (00_scope.md R9): none is `⊥`. -/
def cacheAt (s : State) (i : Fin 8) : Option Byte := s.rtcc[i]

/-- The entry number of a 3-bit index (42_rtc.md R188, R189). -/
def cacheIndex (idx : BitVec 3) : Fin 8 := idx.toFin

/-- The address operand of `SA(X, m)`: the current value of register `X` (30_encoding.md R97), none where it is `⊥`. -/
def readAddress (x : AddrSrc) (s : State) : Option Addr7 :=
  match x with
  | .word addr => some addr
  | .ee17 => s.ee17Sa
  | .ee12 => s.ee12Sa
  | .rtc => s.rtcSa
  | .gpx => s.gpxSa

/-- The byte operand of `SB(e)`, "evaluated when the micro-operation executes" (30_encoding.md R97), none where it reads `⊥`. -/
def readByte (e : ByteSrc) (s : State) : Option Byte :=
  match e with
  | .word b => some b
  | .rtcBase => some s.cfg.rtcBase
  | .chReg => some s.cfg.chReg
  | .cache i => cacheAt s i
  | .tmpHalted => s.seqTmp.map fun t => t ||| chMask s.cfg
  | .tmpRunning => s.seqTmp.map fun t => t &&& ~~~(chMask s.cfg)

/-- A bus primitive whose operands have been read (40_bus_engine.md R124 to R131). -/
inductive Primitive where
  | start
  | restart
  | stop
  | sendAddress (addr : Addr7) (m : Mode)
  | sendByte (b : Byte)
  | receive (d : Dest)
  | sendAck (k : Bit)
  | readAck (a : Bit)
deriving DecidableEq, Repr

/-- The operand reads of 40_bus_engine.md R122, check 3: none where an operand register holds `⊥`. -/
def readOperands (u : MicroOp) (s : State) : Option Primitive :=
  match u with
  | .start => some .start
  | .restart => some .restart
  | .stop => some .stop
  | .sa x m => (readAddress x s).map fun a => .sendAddress a m
  | .sb e => (readByte e s).map .sendByte
  | .rcv d => some (.receive d)
  | .ack k => some (.sendAck k)
  | .rdack => s.ackl.map .readAck

end Sys2Proof.Machine
end

