-- ==== Sys2Proof/Machine/Pins.lean ====
section
/-! DEFINITION. The pin-level refinement of the wire events (40_bus_engine.md R140 to R146): the waveform of each event as a
list of pin actions, the levels it leaves, and its run against the levels actually on the two lines. -/

namespace Sys2Proof.Machine

/-- One action of a waveform (40_bus_engine.md R141 to R144 and the introduction to them). -/
inductive PinAction where
  /-- `SDA_O <- v` -/
  | sda (v : Bit)
  /-- `SCL_O <- v` -/
  | scl (v : Bit)
  /-- `T`, one delay of unspecified positive length -/
  | delay
  /-- `rise`: wait, without time-out, until `scl_i = 1` -/
  | rise
  /-- `v <- sda_i` -/
  | sample
deriving DecidableEq, Repr

/-- The levels the block puts on the two lines: 0 = driven low, 1 = released (10_state.md R48). -/
structure Levels where
  scl : Bit
  sda : Bit
deriving DecidableEq, Repr

/-- The levels actually on the two lines, `scl_i` and `sda_i` (10_state.md R48). -/
structure LineIn where
  scl : Bit
  sda : Bit
deriving DecidableEq, Repr

/-- *Write bit* `v` (40_bus_engine.md R144). -/
def writeBit (v : Bit) : List PinAction :=
  [.sda v, .delay, .scl 1#1, .rise, .delay, .scl 0#1, .delay]

/-- *Read bit* (40_bus_engine.md R144). -/
def readBit : List PinAction :=
  [.sda 1#1, .delay, .scl 1#1, .rise, .sample, .delay, .scl 0#1, .delay]

/-- The bits of a byte in wire order, bit 7 first (20_memory.md R64). -/
def msbFirst (b : Byte) : List Bit :=
  [b.extractLsb' 7 1, b.extractLsb' 6 1, b.extractLsb' 5 1, b.extractLsb' 4 1,
   b.extractLsb' 3 1, b.extractLsb' 2 1, b.extractLsb' 1 1, b.extractLsb' 0 1]

/-- The byte whose bits arrive in this order, the first being bit 7 (40_bus_engine.md R145). -/
def byteOfBits (bits : List Bit) : Byte :=
  bits.foldl (fun acc v => acc <<< 1 ||| v.setWidth 8) 0#8

/-- `env_ack()` and `env_data()` as values of `sda_i`: what the environment answers when the sampling points of the event read
these bits, oldest first. The one sampling point of a sent byte is its acknowledge slot, the eight of a received byte are its
bits (40_bus_engine.md R145). -/
def answerOfSamples (bits : List Bit) : Answer where
  ack  := (byteOfBits bits).extractLsb' 0 1
  data := byteOfBits bits

/-- The waveform of an event (40_bus_engine.md R141 START, R142 RESTART, R143 STOP, R145 the byte events). -/
def waveform : WireEvent → List PinAction
  | .start   => [.sda 0#1, .delay, .scl 0#1, .delay]
  | .restart => [.sda 1#1, .delay, .scl 1#1, .rise, .delay, .sda 0#1, .delay, .scl 0#1, .delay]
  | .stop    => [.sda 0#1, .delay, .scl 1#1, .rise, .delay, .sda 1#1, .delay]
  | .tx b _  => (msbFirst b).flatMap writeBit ++ readBit
  | .rx _    => .sda 1#1 :: (List.replicate 8 readBit).flatten
  | .ma k    => writeBit k ++ [.sda 1#1]

/-- The levels after one action. -/
def PinAction.drive (a : PinAction) (l : Levels) : Levels :=
  match a with
  | .sda v => { l with sda := v }
  | .scl v => { l with scl := v }
  | .delay => l
  | .rise => l
  | .sample => l

/-- The levels a waveform leaves when it has run to its end, every `rise` in it included (40_bus_engine.md R146). -/
def settle (acts : List PinAction) (l : Levels) : Levels :=
  acts.foldl (fun l a => a.drive l) l

/-- The bits the slave puts on the data line during an event: the acknowledge of a sent byte, the bits of a received one
(40_bus_engine.md R145). -/
def slaveBits : WireEvent → List Bit
  | .tx _ a => [a]
  | .rx d => msbFirst d
  | .start => []
  | .restart => []
  | .stop => []
  | .ma _ => []

/-- The pin level part-way through a waveform: the levels driven and the bits sampled so far, oldest first. -/
structure PinRun where
  levels  : Levels
  sampled : List Bit
deriving DecidableEq, Repr

/-- Runs a waveform, one action for each pair of line levels listed. A `rise` holds while the clock line reads low
(40_bus_engine.md, introduction to R140; R146: a slave that holds the clock low for ever stops the waveform part-way).
Answers the run so far and the actions not yet executed. -/
def runPins : List LineIn → List PinAction → PinRun → PinRun × List PinAction
  | [], acts, p => (p, acts)
  | _ :: _, [], p => (p, [])
  | line :: lines, a :: acts, p =>
    match a with
    | .rise => if line.scl = 1#1 then runPins lines acts p else runPins lines (.rise :: acts) p
    | .sample => runPins lines acts { p with sampled := p.sampled ++ [line.sda] }
    | .sda v => runPins lines acts { p with levels := { p.levels with sda := v } }
    | .scl v => runPins lines acts { p with levels := { p.levels with scl := v } }
    | .delay => runPins lines acts p

/-- The data line changes only while the clock is low (40_bus_engine.md R140), from the levels `l` on. -/
def dataStable : List PinAction → Levels → Bool
  | [], _ => true
  | a :: acts, l =>
    (match a with
      | .sda v => l.scl == 0#1 || v == l.sda
      | .scl _ => true
      | .delay => true
      | .rise => true
      | .sample => true) && dataStable acts (a.drive l)

end Sys2Proof.Machine
end

