-- ==== Sys2Proof/Machine/Ops.lean ====
section
/-! DEFINITION. The shared operations: raising a fault and leaving it by reset, drawing an answer, emitting a wire event,
executing a bus primitive, the micro-step, and the acceptance of a command. -/

namespace Sys2Proof.Machine

/-- `raise Fault(c)` (60_exceptions.md R211): the first fault writes `FAULT` and `FAULT_INFO`, nothing else changes, and neither
register is ever overwritten. The block takes no step from then on (`command`, `presentWord`, `blockStep`). There is no handler,
no vector and no saved state. -/
def raise (c : FaultCode) (info : Word) (s : State) : State :=
  if s.fault = .noFault then { s with fault := c, faultInfo := some info } else s

/-- The only way out of a fault or a hang (60_exceptions.md R211, 70_reset_and_hazards.md R240): every register of the block takes
its reset value (10_state.md R50). The parameters, the environment and the moves still to come are not the block's and stay. -/
def resetBlock (s : State) : State :=
  { State.reset with
    cfg := s.cfg, portIdle := s.portIdle, answers := s.answers, draws := s.draws, sched := s.sched }

/-- The environment's answer to the draw after `k` further draws: the one State lists, else the free value of that draw's number
(20_memory.md R70, log 5). -/
def answerAt (s : State) (k : Nat) : Answer :=
  (s.answers[k]?).getD (Config.freeAnswer (s.draws + k))

/-- The state after `n` draws. -/
def drawn (n : Nat) (s : State) : State :=
  { s with answers := s.answers.drop n, draws := s.draws + n }

/-- `emit(e)` (00_scope.md R10): append the event to `TRACE` and, at pin level, perform its waveform. -/
def emit (e : WireEvent) (s : State) : State :=
  let l := settle (waveform e) ⟨s.sclO, s.sdaO⟩
  { s with trace := s.trace ++ [e], sclO := l.scl, sdaO := l.sda }

/-- `RTCC[i] <- v` (00_scope.md R9). -/
def cachePut (i : Fin 8) (v : Byte) (s : State) : State :=
  { s with rtcc := s.rtcc.set i.val (some v) i.isLt }

/-- `d <- v` for the destination of a receive (30_encoding.md R97). -/
def writeDest (d : Dest) (v : Byte) (s : State) : State :=
  match d with
  | .rsp => { s with rsp := some v }
  | .seqTmp => { s with seqTmp := some v }
  | .cache i => cachePut i v s

/-- The action of a bus primitive, after its checks and its wait (40_bus_engine.md R124 to R131; the next `PHASE` is that of
R122). -/
def perform (p : Primitive) (s : State) : State :=
  match p with
  | .start => { emit .start s with phase := .started }
  | .restart => { emit .restart s with phase := .started }
  | .stop => { emit .stop s with phase := .free }
  | .sendAddress addr m =>
    let a := (answerAt s 0).ack
    { emit (.tx (addressByte addr m) a) (drawn 1 s) with ackl := some a, phase := phaseAfterAddress m }
  | .sendByte b =>
    let a := (answerAt s 0).ack
    { emit (.tx b a) (drawn 1 s) with ackl := some a }
  | .receive d =>
    let v := (answerAt s 0).data
    writeDest d v { emit (.rx v) (drawn 1 s) with rxb := some v, phase := .rxNeedAck }
  | .sendAck k => { emit (.ma k) s with phase := phaseAfterAck k }
  | .readAck a => { s with rsp := some (bitResponse a) }

/-- `pc <- SEQ_PC + 1`, and completion in the same step when that is the length of the list (30_encoding.md R99, R100). -/
def advance (len : Nat) (s : State) : State :=
  if (s.seqPc + 1#6).toNat = len then { s with busy := false, seqPc := 0#6 }
  else { s with seqPc := s.seqPc + 1#6 }

/-- One micro-operation of the command whose word is `w` and whose list has `len` entries: the checks of 40_bus_engine.md R122
in their order, the wait (R121: while `PORT_IDLE` is 0 no register changes), the action, and the advance (30_encoding.md R99). -/
def microOp (w : Word) (len : Nat) (u : MicroOp) (s : State) : State :=
  if s.openf = false then raise .notOpen w s
  else if legalPhase u s.phase = false then raise .protocol w s
  else match readOperands u s with
    | none => raise .unwritten w s
    | some p => if s.portIdle = true then advance len (perform p s) else s

/-- The micro-step of 30_encoding.md R99: the entry of the list that `SEQ_PC` points at. -/
def microStep (w : Word) (list : List MicroOp) (s : State) : Host.Outcome State Fault Refusal :=
  match list[s.seqPc.toNat]? with
  | none => .fault .pcPastList
  | some u => .next (microOp w list.length u s)

/-- Acceptance of a command (30_encoding.md R93, case 4): its acceptance effects, which may fault; then a local command is
complete, and any other is latched and its micro-operations run in later steps. -/
def accept (w : Word) (effects : State → Except FaultCode State) (list : List MicroOp) (s : State) : State :=
  match effects s with
  | .error c => raise c w s
  | .ok t => if list.isEmpty then t else { t with seqCmd := some w, seqPc := 0#6, busy := true }

/-- What the block does for one command in one step: nothing while a fault stands (30_encoding.md R93, case 1); the command's
acceptance while the block is idle; the next micro-operation of its list while the command is in progress (log 16). -/
def command (w : Word) (effects : State → Except FaultCode State) (list : List MicroOp) (s : State) :
    Host.Outcome State Fault Refusal :=
  if s.fault ≠ .noFault then .next s
  else if s.busy = true then microStep w list s
  else .next (accept w effects list s)

/-- No acceptance effects: the Bus Engine commands other than `OPEN` (30_encoding.md R97). -/
def noEffects (s : State) : Except FaultCode State := .ok s

/-- `if X = ⊥: raise Fault(UNWRITTEN)`, the acceptance effect of a driver command whose address register is `x`. -/
def needAddress (x : State → Option Addr7) (s : State) : Except FaultCode State :=
  match x s with
  | none => .error .unwritten
  | some _ => .ok s

/-- What the host and the bus see of the block (10_state.md R46 to R48). -/
structure Outputs where
  busy      : Bool
  rsp       : Option Byte
  fault     : BitVec 4
  faultInfo : Option Word
  sclO      : Bit
  sdaO      : Bit
deriving DecidableEq, Repr

/-- The output ports (10_state.md R46, R47, R48). -/
def outputs (s : State) : Outputs where
  busy      := s.busy
  rsp       := s.rsp
  fault     := s.fault.code
  faultInfo := s.faultInfo
  sclO      := s.sclO
  sdaO      := s.sdaO

end Sys2Proof.Machine
end

