-- ==== Sys2Proof/Machine/Eeprom.lean ====
section
/-! DEFINITION. The EEPROM-style driver commands, 17-bit and 12-bit variants (41_eeprom.md R160 to R167). -/

namespace Sys2Proof.Machine

/-- The acceptance effects of `EE17_INIT(phys)` (41_eeprom.md R160): `EE17_SA <- FAM_EE ‖ 0b0 ‖ phys`. -/
def ee17InitEffects (phys : BitVec 2) (s : State) : Except FaultCode State :=
  .ok { s with ee17Sa := some (slaveAddress s.cfg.famEE (bankField 0#1 phys)) }

/-- `EE17_INIT(phys)`, 41_eeprom.md R160: a local command. -/
def execEe17Init (phys : BitVec 2) (s : State) : Host.Outcome State Fault Refusal :=
  command (encode (.ee17Init phys)) (ee17InitEffects phys) [] s

/-- The acceptance effects of `EE17_READ` and `EE17_WRITE` (41_eeprom.md R161, R162): the bank bit is "recomputed on every
call". -/
def ee17SelectBank (off : BitVec 17) (s : State) : Except FaultCode State :=
  match s.ee17Sa with
  | none => .error .unwritten
  | some sa => .ok { s with ee17Sa := some (withBank sa (bank17 off)) }

/-- The list of `EE17_READ(off)` (41_eeprom.md R161), 9 entries. -/
def ee17ReadList (off : BitVec 17) : List MicroOp :=
  [.start, .sa .ee17 .write, .sb (.word (hi17 off)), .sb (.word (lo17 off)), .restart, .sa .ee17 .read,
   .rcv .rsp, .ack 1#1, .stop]

/-- `EE17_READ(off)`, 41_eeprom.md R161. -/
def execEe17Read (off : BitVec 17) (s : State) : Host.Outcome State Fault Refusal :=
  command (encode (.ee17Read off)) (ee17SelectBank off) (ee17ReadList off) s

/-- The list of `EE17_WRITE(off, data)` (41_eeprom.md R162), 6 entries. -/
def ee17WriteList (off : BitVec 17) (data : Byte) : List MicroOp :=
  [.start, .sa .ee17 .write, .sb (.word (hi17 off)), .sb (.word (lo17 off)), .sb (.word data), .stop]

/-- `EE17_WRITE(off, data)`, 41_eeprom.md R162. -/
def execEe17Write (off : BitVec 17) (data : Byte) (s : State) : Host.Outcome State Fault Refusal :=
  command (encode (.ee17Write off data)) (ee17SelectBank off) (ee17WriteList off data) s

/-- The list of `EE17_IS_WRITE_BUSY` (41_eeprom.md R163), 4 entries. -/
def ee17BusyList : List MicroOp := [.start, .sa .ee17 .write, .rdack, .stop]

/-- `EE17_IS_WRITE_BUSY`, 41_eeprom.md R163: the bank of the most recent read or write is addressed. -/
def execEe17IsWriteBusy (s : State) : Host.Outcome State Fault Refusal :=
  command (encode .ee17IsWriteBusy) (needAddress State.ee17Sa) ee17BusyList s

/-- The acceptance effects of `EE12_INIT(phys)` (41_eeprom.md R164): `EE12_SA <- FAM_EE ‖ phys`. -/
def ee12InitEffects (phys : BitVec 3) (s : State) : Except FaultCode State :=
  .ok { s with ee12Sa := some (slaveAddress s.cfg.famEE phys) }

/-- `EE12_INIT(phys)`, 41_eeprom.md R164: a local command. -/
def execEe12Init (phys : BitVec 3) (s : State) : Host.Outcome State Fault Refusal :=
  command (encode (.ee12Init phys)) (ee12InitEffects phys) [] s

/-- The list of `EE12_READ(off)` (41_eeprom.md R165), 9 entries. -/
def ee12ReadList (off : BitVec 12) : List MicroOp :=
  [.start, .sa .ee12 .write, .sb (.word (hi12 off)), .sb (.word (lo12 off)), .restart, .sa .ee12 .read,
   .rcv .rsp, .ack 1#1, .stop]

/-- `EE12_READ(off)`, 41_eeprom.md R165. -/
def execEe12Read (off : BitVec 12) (s : State) : Host.Outcome State Fault Refusal :=
  command (encode (.ee12Read off)) (needAddress State.ee12Sa) (ee12ReadList off) s

/-- The list of `EE12_WRITE(off, data)` (41_eeprom.md R166), 6 entries. -/
def ee12WriteList (off : BitVec 12) (data : Byte) : List MicroOp :=
  [.start, .sa .ee12 .write, .sb (.word (hi12 off)), .sb (.word (lo12 off)), .sb (.word data), .stop]

/-- `EE12_WRITE(off, data)`, 41_eeprom.md R166. -/
def execEe12Write (off : BitVec 12) (data : Byte) (s : State) : Host.Outcome State Fault Refusal :=
  command (encode (.ee12Write off data)) (needAddress State.ee12Sa) (ee12WriteList off data) s

/-- The list of `EE12_IS_WRITE_BUSY` (41_eeprom.md R167), 4 entries. -/
def ee12BusyList : List MicroOp := [.start, .sa .ee12 .write, .rdack, .stop]

/-- `EE12_IS_WRITE_BUSY`, 41_eeprom.md R167. -/
def execEe12IsWriteBusy (s : State) : Host.Outcome State Fault Refusal :=
  command (encode .ee12IsWriteBusy) (needAddress State.ee12Sa) ee12BusyList s

end Sys2Proof.Machine
end

