-- ==== Sys2Proof/Machine/Engine.lean ====
section
/-! DEFINITION. The nine Bus Engine commands (40_bus_engine.md R120 to R131). The eight other than `OPEN` are the one-entry list
of their own primitive (30_encoding.md R97). -/

namespace Sys2Proof.Machine

/-- The acceptance effects of `OPEN(rate)` (40_bus_engine.md R123): `PROTOCOL` inside a transaction, `CONFIG` for a rate outside
`RATE_TABLE`, else `DIV`, `OPENF` and both lines released. -/
def openEffects (rate : Byte) (s : State) : Except FaultCode State :=
  if s.phase ≠ .free then .error .protocol
  else match divisorOf s.cfg rate with
    | none => .error .config
    | some d => .ok { s with div := some d, openf := true, sclO := 1#1, sdaO := 1#1 }

/-- `OPEN(rate)`, 40_bus_engine.md R123: a local command. -/
def execBusOpen (rate : Byte) (s : State) : Host.Outcome State Fault Refusal :=
  command (encode (.busOpen rate)) (openEffects rate) [] s

/-- The list of `BEGIN` (40_bus_engine.md R124). -/
def beginList : List MicroOp := [.start]

/-- `BEGIN`, 40_bus_engine.md R124. -/
def execBusBegin (s : State) : Host.Outcome State Fault Refusal :=
  command (encode .busBegin) noEffects beginList s

/-- The list of `REPEAT_BEGIN` (40_bus_engine.md R125). -/
def repeatBeginList : List MicroOp := [.restart]

/-- `REPEAT_BEGIN`, 40_bus_engine.md R125. -/
def execBusRepeatBegin (s : State) : Host.Outcome State Fault Refusal :=
  command (encode .busRepeatBegin) noEffects repeatBeginList s

/-- The list of `END` (40_bus_engine.md R126). -/
def endList : List MicroOp := [.stop]

/-- `END`, 40_bus_engine.md R126. -/
def execBusEnd (s : State) : Host.Outcome State Fault Refusal :=
  command (encode .busEnd) noEffects endList s

/-- The list of `SEND_ADDRESS(addr7, mode)` (40_bus_engine.md R127). -/
def sendAddressList (addr : Addr7) (mode : Mode) : List MicroOp := [.sa (.word addr) mode]

/-- `SEND_ADDRESS(addr7, mode)`, 40_bus_engine.md R127. -/
def execSendAddress (addr : Addr7) (mode : Mode) (s : State) : Host.Outcome State Fault Refusal :=
  command (encode (.sendAddress addr mode)) noEffects (sendAddressList addr mode) s

/-- The list of `SEND_BYTE(b)` (40_bus_engine.md R128). -/
def sendByteList (b : Byte) : List MicroOp := [.sb (.word b)]

/-- `SEND_BYTE(b)`, 40_bus_engine.md R128. -/
def execSendByte (b : Byte) (s : State) : Host.Outcome State Fault Refusal :=
  command (encode (.sendByte b)) noEffects (sendByteList b) s

/-- The list of `RECEIVE_BYTE`, with `RCV -> RSP` (40_bus_engine.md R129, 30_encoding.md R97). -/
def receiveByteList : List MicroOp := [.rcv .rsp]

/-- `RECEIVE_BYTE`, 40_bus_engine.md R129. -/
def execReceiveByte (s : State) : Host.Outcome State Fault Refusal :=
  command (encode .receiveByte) noEffects receiveByteList s

/-- The list of `SEND_ACK(k)` (40_bus_engine.md R130). -/
def sendAckList (k : Bit) : List MicroOp := [.ack k]

/-- `SEND_ACK(k)`, 40_bus_engine.md R130. -/
def execSendAck (k : Bit) (s : State) : Host.Outcome State Fault Refusal :=
  command (encode (.sendAck k)) noEffects (sendAckList k) s

/-- The list of `READ_ACK`, with `RDACK -> RSP` (40_bus_engine.md R131, 30_encoding.md R97). -/
def readAckList : List MicroOp := [.rdack]

/-- `READ_ACK`, 40_bus_engine.md R131. -/
def execReadAck (s : State) : Host.Outcome State Fault Refusal :=
  command (encode .readAck) noEffects readAckList s

end Sys2Proof.Machine
end

