-- ==== Sys2Proof/Machine/Gpx.lean ====
section
/-! DEFINITION. The GPIO-expander driver commands (43_gpio_expander.md R200 to R202). -/

namespace Sys2Proof.Machine

/-- The acceptance effects of `GPX_INIT(phys)` (43_gpio_expander.md R200): `GPX_SA <- FAM_GPX ‖ phys`. -/
def gpxInitEffects (phys : BitVec 3) (s : State) : Except FaultCode State :=
  .ok { s with gpxSa := some (slaveAddress s.cfg.famGPX phys) }

/-- `GPX_INIT(phys)`, 43_gpio_expander.md R200: a local command. -/
def execGpxInit (phys : BitVec 3) (s : State) : Host.Outcome State Fault Refusal :=
  command (encode (.gpxInit phys)) (gpxInitEffects phys) [] s

/-- The list of `GPX_READ(reg)` (43_gpio_expander.md R201), 8 entries. -/
def gpxReadList (reg : Byte) : List MicroOp :=
  [.start, .sa .gpx .write, .sb (.word reg), .restart, .sa .gpx .read, .rcv .rsp, .ack 1#1, .stop]

/-- `GPX_READ(reg)`, 43_gpio_expander.md R201. -/
def execGpxRead (reg : Byte) (s : State) : Host.Outcome State Fault Refusal :=
  command (encode (.gpxRead reg)) (needAddress State.gpxSa) (gpxReadList reg) s

/-- The list of `GPX_WRITE(reg, data)` (43_gpio_expander.md R202), 5 entries. -/
def gpxWriteList (reg data : Byte) : List MicroOp :=
  [.start, .sa .gpx .write, .sb (.word reg), .sb (.word data), .stop]

/-- `GPX_WRITE(reg, data)`, 43_gpio_expander.md R202. -/
def execGpxWrite (reg data : Byte) (s : State) : Host.Outcome State Fault Refusal :=
  command (encode (.gpxWrite reg data)) (needAddress State.gpxSa) (gpxWriteList reg data) s

end Sys2Proof.Machine
end

