-- ==== Sys2Proof/Machine/Rtc.lean ====
section
/-! DEFINITION. The RTC driver commands and the register cache (42_rtc.md R180 to R189). -/

namespace Sys2Proof.Machine

/-- The acceptance effects of `RTC_INIT(phys)` (42_rtc.md R180): `RTC_SA <- FAM_RTC ‖ phys`. -/
def rtcInitEffects (phys : BitVec 3) (s : State) : Except FaultCode State :=
  .ok { s with rtcSa := some (slaveAddress s.cfg.famRTC phys) }

/-- `RTC_INIT(phys)`, 42_rtc.md R180: a local command. -/
def execRtcInit (phys : BitVec 3) (s : State) : Host.Outcome State Fault Refusal :=
  command (encode (.rtcInit phys)) (rtcInitEffects phys) [] s

/-- The list of `RTC_READ(reg)` (42_rtc.md R181), 8 entries. -/
def rtcReadList (reg : Byte) : List MicroOp :=
  [.start, .sa .rtc .write, .sb (.word reg), .restart, .sa .rtc .read, .rcv .rsp, .ack 1#1, .stop]

/-- `RTC_READ(reg)`, 42_rtc.md R181. -/
def execRtcRead (reg : Byte) (s : State) : Host.Outcome State Fault Refusal :=
  command (encode (.rtcRead reg)) (needAddress State.rtcSa) (rtcReadList reg) s

/-- The list of `RTC_WRITE(reg, data)` (42_rtc.md R182), 5 entries. -/
def rtcWriteList (reg data : Byte) : List MicroOp :=
  [.start, .sa .rtc .write, .sb (.word reg), .sb (.word data), .stop]

/-- `RTC_WRITE(reg, data)`, 42_rtc.md R182. -/
def execRtcWrite (reg data : Byte) (s : State) : Host.Outcome State Fault Refusal :=
  command (encode (.rtcWrite reg data)) (needAddress State.rtcSa) (rtcWriteList reg data) s

/-- The list of `RTC_GET_CLOCK` (42_rtc.md R183), 22 entries. -/
def rtcGetClockList : List MicroOp :=
  [.start, .sa .rtc .write, .sb .rtcBase, .restart, .sa .rtc .read,
   .rcv (.cache 0), .ack 0#1, .rcv (.cache 1), .ack 0#1, .rcv (.cache 2), .ack 0#1, .rcv (.cache 3), .ack 0#1,
   .rcv (.cache 4), .ack 0#1, .rcv (.cache 5), .ack 0#1, .rcv (.cache 6), .ack 0#1, .rcv (.cache 7), .ack 1#1, .stop]

/-- `RTC_GET_CLOCK`, the pull, 42_rtc.md R183. -/
def execRtcGetClock (s : State) : Host.Outcome State Fault Refusal :=
  command (encode .rtcGetClock) (needAddress State.rtcSa) rtcGetClockList s

/-- The read envelope of a clock stop or start: entries 0 to 7 of the list of 42_rtc.md R186. -/
def chReadList : List MicroOp :=
  [.start, .sa .rtc .write, .sb .chReg, .restart, .sa .rtc .read, .rcv .seqTmp, .ack 1#1, .stop]

/-- The write envelope of a clock stop or start: entries 8 to 12 of the list of 42_rtc.md R186, with the byte of entry 11. -/
def chWriteList (e : ByteSrc) : List MicroOp :=
  [.start, .sa .rtc .write, .sb .chReg, .sb e, .stop]

/-- The list of `RTC_STOP_CLOCK` (42_rtc.md R186), 13 entries. -/
def rtcStopClockList : List MicroOp := chReadList ++ chWriteList .tmpHalted

/-- `RTC_STOP_CLOCK`, 42_rtc.md R186. -/
def execRtcStopClock (s : State) : Host.Outcome State Fault Refusal :=
  command (encode .rtcStopClock) (needAddress State.rtcSa) rtcStopClockList s

/-- The list of `RTC_START_CLOCK` (42_rtc.md R187), 13 entries. -/
def rtcStartClockList : List MicroOp := chReadList ++ chWriteList .tmpRunning

/-- `RTC_START_CLOCK`, 42_rtc.md R187. -/
def execRtcStartClock (s : State) : Host.Outcome State Fault Refusal :=
  command (encode .rtcStartClock) (needAddress State.rtcSa) rtcStartClockList s

/-- The burst write list `BW` (42_rtc.md R184), 11 entries. -/
def burstWriteList : List MicroOp :=
  [.start, .sa .rtc .write, .sb .rtcBase, .sb (.cache 0), .sb (.cache 1), .sb (.cache 2), .sb (.cache 3),
   .sb (.cache 4), .sb (.cache 5), .sb (.cache 6), .stop]

/-- The list of `RTC_SET_CLOCK` (42_rtc.md R185), 37 entries: clock stop, burst write, clock start. -/
def rtcSetClockList : List MicroOp := rtcStopClockList ++ burstWriteList ++ rtcStartClockList

/-- The cache entries that `RTC_SET_CLOCK` pushes have all been written (42_rtc.md R185). -/
def pushable (s : State) : Bool :=
  [0, 1, 2, 3, 4, 5, 6].all fun i => (cacheAt s i).isSome

/-- The acceptance effects of `RTC_SET_CLOCK` (42_rtc.md R185). -/
def rtcSetClockEffects (s : State) : Except FaultCode State :=
  match s.rtcSa with
  | none => .error .unwritten
  | some _ => if pushable s then .ok s else .error .unwritten

/-- `RTC_SET_CLOCK`, the push, 42_rtc.md R185. -/
def execRtcSetClock (s : State) : Host.Outcome State Fault Refusal :=
  command (encode .rtcSetClock) rtcSetClockEffects rtcSetClockList s

/-- The acceptance effects of `RTC_CACHE_GET(idx)` (42_rtc.md R188): `RSP <- RTCC[idx]`. -/
def cacheGetEffects (idx : BitVec 3) (s : State) : Except FaultCode State :=
  match cacheAt s (cacheIndex idx) with
  | none => .error .unwritten
  | some v => .ok { s with rsp := some v }

/-- `RTC_CACHE_GET(idx)`, 42_rtc.md R188: a local command. -/
def execRtcCacheGet (idx : BitVec 3) (s : State) : Host.Outcome State Fault Refusal :=
  command (encode (.rtcCacheGet idx)) (cacheGetEffects idx) [] s

/-- The acceptance effects of `RTC_CACHE_PUT(idx, data)` (42_rtc.md R189): `RTCC[idx] <- data`. -/
def cachePutEffects (idx : BitVec 3) (data : Byte) (s : State) : Except FaultCode State :=
  .ok (cachePut (cacheIndex idx) data s)

/-- `RTC_CACHE_PUT(idx, data)`, 42_rtc.md R189: a local command. -/
def execRtcCachePut (idx : BitVec 3) (data : Byte) (s : State) : Host.Outcome State Fault Refusal :=
  command (encode (.rtcCachePut idx data)) (cachePutEffects idx data) [] s

end Sys2Proof.Machine
end

