-- ==== Sys2Proof/Machine/Dispatch.lean ====
section
/-! DEFINITION. One step of the block for a command: its acceptance while the block is idle, its next micro-operation while it is
in progress. -/

namespace Sys2Proof.Machine

def exec (i : Instr) (s : State) : Host.Outcome State Fault Refusal :=
  match i with
  | .busOpen rate => Sys2Proof.Machine.execBusOpen rate s
  | .busBegin => Sys2Proof.Machine.execBusBegin s
  | .busRepeatBegin => Sys2Proof.Machine.execBusRepeatBegin s
  | .busEnd => Sys2Proof.Machine.execBusEnd s
  | .sendAddress addr mode => Sys2Proof.Machine.execSendAddress addr mode s
  | .sendByte b => Sys2Proof.Machine.execSendByte b s
  | .receiveByte => Sys2Proof.Machine.execReceiveByte s
  | .sendAck k => Sys2Proof.Machine.execSendAck k s
  | .readAck => Sys2Proof.Machine.execReadAck s
  | .ee17Init phys => Sys2Proof.Machine.execEe17Init phys s
  | .ee17Read off => Sys2Proof.Machine.execEe17Read off s
  | .ee17Write off data => Sys2Proof.Machine.execEe17Write off data s
  | .ee17IsWriteBusy => Sys2Proof.Machine.execEe17IsWriteBusy s
  | .ee12Init phys => Sys2Proof.Machine.execEe12Init phys s
  | .ee12Read off => Sys2Proof.Machine.execEe12Read off s
  | .ee12Write off data => Sys2Proof.Machine.execEe12Write off data s
  | .ee12IsWriteBusy => Sys2Proof.Machine.execEe12IsWriteBusy s
  | .rtcInit phys => Sys2Proof.Machine.execRtcInit phys s
  | .rtcRead reg => Sys2Proof.Machine.execRtcRead reg s
  | .rtcWrite reg data => Sys2Proof.Machine.execRtcWrite reg data s
  | .rtcGetClock => Sys2Proof.Machine.execRtcGetClock s
  | .rtcSetClock => Sys2Proof.Machine.execRtcSetClock s
  | .rtcStopClock => Sys2Proof.Machine.execRtcStopClock s
  | .rtcStartClock => Sys2Proof.Machine.execRtcStartClock s
  | .rtcCacheGet idx => Sys2Proof.Machine.execRtcCacheGet idx s
  | .rtcCachePut idx data => Sys2Proof.Machine.execRtcCachePut idx data s
  | .gpxInit phys => Sys2Proof.Machine.execGpxInit phys s
  | .gpxRead reg => Sys2Proof.Machine.execGpxRead reg s
  | .gpxWrite reg data => Sys2Proof.Machine.execGpxWrite reg data s

end Sys2Proof.Machine
end

