-- ==== Sys2Proof/Machine/Fetch.lean ====
section
/-! DEFINITION. How a word becomes a command in progress and how the command in progress goes on: presentation
(30_encoding.md R93), the block's step (R99), the moves of the other agents (10_state.md R20, R40, R49). -/

namespace Sys2Proof.Machine

/-- The host presents the word `w` (30_encoding.md R93): ignored while a fault stands, `REENTRY` while a command is in progress,
`ILLEGAL_CMD` if it is no command, else the command is accepted. -/
def presentWord (w : Word) (s : State) : Host.Outcome State Fault Refusal :=
  if s.fault ≠ .noFault then .next s
  else if s.busy = true then .next (raise .reentry w s)
  else match decode w with
    | .error _ => .next (raise .illegalCmd w s)
    | .ok i => exec i s

/-- The block is scheduled (30_encoding.md R99): while a fault stands or no command is in progress it takes no step; else it
tries the next micro-operation of the command in `SEQ_CMD`. -/
def blockStep (s : State) : Host.Outcome State Fault Refusal :=
  if s.fault ≠ .noFault then .next s
  else if s.busy = false then .next s
  else match s.seqCmd with
    | none => .fault .noCommandInProgress
    | some w =>
      match decode w with
      | .error _ => .fault .noCommandInProgress
      | .ok i => exec i s

/-- One move of an agent (10_state.md R20, 70_reset_and_hazards.md R262). -/
def takeMove (m : Move) (s : State) : Host.Outcome State Fault Refusal :=
  match m with
  | .present w => presentWord w s
  | .block => blockStep s
  | .portIdle level => .next { s with portIdle := level }
  | .reset => .next (resetBlock s)

/-- The next step: the next listed move, or the block's when none is listed (log 4). -/
def scheduledStep (s : State) : Host.Outcome State Fault Refusal :=
  match s.sched with
  | [] => blockStep s
  | m :: ms => takeMove m { s with sched := ms }

/-- The host's presentation of an `nbits`-bit word listed as the very next move. -/
def offerWord (s : State) (nbits w : Nat) : State :=
  { s with sched := .present ((BitVec.ofNat nbits w).setWidth 32) :: s.sched }

/-- `n` steps of the block alone, with no other agent moving: how a command in progress runs on. -/
def runBlock : Nat → State → Host.Outcome State Fault Refusal
  | 0, s => .next s
  | n + 1, s =>
    match blockStep s with
    | .next t => runBlock n t
    | .fault r => .fault r
    | .refused r => .refused r

end Sys2Proof.Machine
end

