-- ==== Sys2Proof/Machine/Step.lean ====
section
/-! DEFINITION. The step of the machine and the place its next word comes from: the host's command port, as the next move of the
schedule (log 17). -/

namespace Sys2Proof.Machine

/-- One step of the machine. -/
def step (s : State) : Host.Outcome State Fault Refusal := scheduledStep s

/-- `s` with the word `w` presented on the command port in the very next step (10_state.md R46, log 17). -/
def State.withFetchWord (s : State) (nbits w : Nat) : State := offerWord s nbits w

end Sys2Proof.Machine
end

