-- ==== Sys2Proof/Machine/PinLevel.lean ====
section
/-! DEFINITION. The block at pin level (40_bus_engine.md R140 to R146): the machine of the wire events together with the waveform
of the last event, which runs on the two lines one action at a time. Its moves are moves of the machine of the wire events and
actions on the pins, and it says what `PORT_IDLE` and the environment's answers are on the pins (logs 23 to 25). -/

namespace Sys2Proof.Machine

/-- The block and its two-wire port part-way through a waveform. -/
structure PinState where
  /-- the block at the level of the wire events, `PORT_IDLE` included -/
  block   : State
  /-- the levels driven at this moment, 10_state.md R48 -/
  levels  : Levels
  /-- the actions of the last event's waveform that have not been executed -/
  wave    : List PinAction
  /-- the bits that waveform has sampled so far, oldest first -/
  sampled : List Bit
deriving DecidableEq, Repr

/-- One move at pin level. -/
inductive PinMove where
  /-- the host presents a word -/
  | present (w : Word)
  /-- the block is scheduled -/
  | block
  /-- the port tries the next action of the waveform while the other devices leave the clock line at this level: 0 = held low -/
  | port (clock : Bit)
  /-- the reset input is 1 -/
  | reset
deriving DecidableEq, Repr

/-- The state right after reset: lines released and no waveform under way (10_state.md R48, R50). -/
def PinState.reset : PinState where
  block   := { State.reset with portIdle := true }
  levels  := ⟨1#1, 1#1⟩
  wave    := []
  sampled := []

/-- The bits the slave puts on the data line during the last event: those the event carries, which were drawn in the step that
recorded it (40_bus_engine.md R145, R146). -/
def lastSlaveBits (s : State) : List Bit :=
  match s.trace.getLast? with
  | none => []
  | some e => slaveBits e

/-- `scl_i` and `sda_i` at the next action: a line is high where nobody drives it low (10_state.md R48). At the sampling points
the other end of the data line is the slave's next bit, so that `env_ack()` and `env_data()` are the values of `sda_i` there
(40_bus_engine.md R145). DESIGN CHOICE (log 25): that bit stands there at the actions before its sampling point too, where the spec
leaves the data line to the environment; only a sampling point reads it. -/
def lineLevels (clock : Bit) (p : PinState) : LineIn where
  scl := p.levels.scl &&& clock
  sda := p.levels.sda &&& ((lastSlaveBits p.block)[p.sampled.length]?).getD 1#1

/-- The port tries the next action of the waveform. `PORT_IDLE` is 1 exactly when the waveform has run to its end, every `rise` in
it included (40_bus_engine.md R146). DESIGN CHOICE (log 24): a waveform under way when the block faults runs on to its end, where
60_exceptions.md R211 does not speak of a waveform. -/
def tick (clock : Bit) (p : PinState) : PinState :=
  let r := runPins [lineLevels clock p] p.wave ⟨p.levels, p.sampled⟩
  { block := { p.block with portIdle := r.2.isEmpty }, levels := r.1.levels, wave := r.2, sampled := r.1.sampled }

/-- The port after a step of the block to `t`: an event recorded in the step starts its waveform, and the port is not idle until
it has run to its end (40_bus_engine.md R146). -/
def startWave (p : PinState) (t : State) : PinState :=
  match t.trace.drop p.block.trace.length with
  | [] => { p with block := t }
  | e :: _ => { block := { t with portIdle := false }, levels := p.levels, wave := waveform e, sampled := [] }

/-- An accepted `OPEN` releases both lines at once, whatever waveform is under way: it does not wait (40_bus_engine.md R121,
R123). -/
def openLines (w : Word) (p q : PinState) : PinState :=
  match decode w with
  | .error _ => q
  | .ok i =>
    if i.opcode = .busOpen ∧ p.block.busy = false ∧ q.block.fault = .noFault then { q with levels := ⟨1#1, 1#1⟩ } else q

/-- The pin-level state after an outcome of the block. -/
def onPins (f : State → PinState) (o : Host.Outcome State Fault Refusal) : Host.Outcome PinState Fault Refusal :=
  match o with
  | .next t => .next (f t)
  | .fault r => .fault r
  | .refused r => .refused r

/-- One step at pin level. The port's move does not look at `FAULT`: DESIGN CHOICE (log 24). -/
def pinStep (m : PinMove) (p : PinState) : Host.Outcome PinState Fault Refusal :=
  match m with
  | .present w => onPins (fun t => openLines w p (startWave p t)) (presentWord w p.block)
  | .block => onPins (startWave p) (blockStep p.block)
  | .port clock => .next (tick clock p)
  | .reset => .next { PinState.reset with block := { resetBlock p.block with portIdle := true } }

/-- A run at pin level. -/
def runPinMoves : List PinMove → PinState → Host.Outcome PinState Fault Refusal
  | [], p => .next p
  | m :: ms, p =>
    match pinStep m p with
    | .next q => runPinMoves ms q
    | .fault r => .fault r
    | .refused r => .refused r

end Sys2Proof.Machine
end

