-- ==== Sys2Proof/Machine/Programs.lean ====
section
/-! DEFINITION. The micro-operation list and the acceptance effects of each command as functions of the command
(30_encoding.md R93, R97, R110), for whatever speaks of all commands at once. -/

namespace Sys2Proof.Machine

/-- `prog(cmd)` (30_encoding.md R97): the fixed list of micro-operations; empty for a local command (R93). -/
def prog : Instr → List MicroOp
  | .busOpen _ => []
  | .busBegin => beginList
  | .busRepeatBegin => repeatBeginList
  | .busEnd => endList
  | .sendAddress addr mode => sendAddressList addr mode
  | .sendByte b => sendByteList b
  | .receiveByte => receiveByteList
  | .sendAck k => sendAckList k
  | .readAck => readAckList
  | .ee17Init _ => []
  | .ee17Read off => ee17ReadList off
  | .ee17Write off data => ee17WriteList off data
  | .ee17IsWriteBusy => ee17BusyList
  | .ee12Init _ => []
  | .ee12Read off => ee12ReadList off
  | .ee12Write off data => ee12WriteList off data
  | .ee12IsWriteBusy => ee12BusyList
  | .rtcInit _ => []
  | .rtcRead reg => rtcReadList reg
  | .rtcWrite reg data => rtcWriteList reg data
  | .rtcGetClock => rtcGetClockList
  | .rtcSetClock => rtcSetClockList
  | .rtcStopClock => rtcStopClockList
  | .rtcStartClock => rtcStartClockList
  | .rtcCacheGet _ => []
  | .rtcCachePut _ _ => []
  | .gpxInit _ => []
  | .gpxRead reg => gpxReadList reg
  | .gpxWrite reg data => gpxWriteList reg data

/-- The acceptance effects of a command (30_encoding.md R93). -/
def acceptEffects : Instr → State → Except FaultCode State
  | .busOpen rate => openEffects rate
  | .busBegin => noEffects
  | .busRepeatBegin => noEffects
  | .busEnd => noEffects
  | .sendAddress _ _ => noEffects
  | .sendByte _ => noEffects
  | .receiveByte => noEffects
  | .sendAck _ => noEffects
  | .readAck => noEffects
  | .ee17Init phys => ee17InitEffects phys
  | .ee17Read off => ee17SelectBank off
  | .ee17Write off _ => ee17SelectBank off
  | .ee17IsWriteBusy => needAddress State.ee17Sa
  | .ee12Init phys => ee12InitEffects phys
  | .ee12Read _ => needAddress State.ee12Sa
  | .ee12Write _ _ => needAddress State.ee12Sa
  | .ee12IsWriteBusy => needAddress State.ee12Sa
  | .rtcInit phys => rtcInitEffects phys
  | .rtcRead _ => needAddress State.rtcSa
  | .rtcWrite _ _ => needAddress State.rtcSa
  | .rtcGetClock => needAddress State.rtcSa
  | .rtcSetClock => rtcSetClockEffects
  | .rtcStopClock => needAddress State.rtcSa
  | .rtcStartClock => needAddress State.rtcSa
  | .rtcCacheGet idx => cacheGetEffects idx
  | .rtcCachePut idx data => cachePutEffects idx data
  | .gpxInit phys => gpxInitEffects phys
  | .gpxRead _ => needAddress State.gpxSa
  | .gpxWrite _ _ => needAddress State.gpxSa

end Sys2Proof.Machine
end

