-- ==== Sys2Proof/Safety.lean ====
section
/-! DEFINITION. The terms in which claims speak of runs: when a command can start, the invariants (10_state.md R43,
40_bus_engine.md R133, R140), final states (70_reset_and_hazards.md R262), the course of a run apart from the data it moves
(30_encoding.md R101), and the device premises of 20_memory.md R71 and R74. -/

namespace Sys2Proof.Machine

/-- No fault stands and no command is in progress: a presented word is accepted or is illegal (30_encoding.md R93). -/
abbrev Idle (s : State) : Prop := s.fault = .noFault ∧ s.busy = false

/-- The command `i` is in progress, its next micro-operation is `u`, and no fault stands (30_encoding.md R99). -/
abbrev InProgress (i : Instr) (u : MicroOp) (s : State) : Prop :=
  s.fault = .noFault ∧ s.busy = true ∧ (prog i)[s.seqPc.toNat]? = some u

/-- A bus command can start and run: idle, the bus open and released, and the port idle (40_bus_engine.md R122). -/
abbrev Ready (s : State) : Prop :=
  Idle s ∧ s.openf = true ∧ s.phase = .free ∧ s.portIdle = true

/-- The levels of the two lines between two primitives (40_bus_engine.md R140). -/
def linesAt : Phase → Levels
  | .free => ⟨1#1, 1#1⟩
  | .started => ⟨0#1, 0#1⟩
  | .tx => ⟨0#1, 1#1⟩
  | .rxReady => ⟨0#1, 1#1⟩
  | .rxNeedAck => ⟨0#1, 1#1⟩
  | .rxDone => ⟨0#1, 1#1⟩

/-- The levels an event leaves on the two lines (40_bus_engine.md R140 to R145). -/
def levelsAfter : WireEvent → Levels
  | .start => ⟨0#1, 0#1⟩
  | .restart => ⟨0#1, 0#1⟩
  | .stop => ⟨1#1, 1#1⟩
  | .tx _ _ => ⟨0#1, 1#1⟩
  | .rx _ => ⟨0#1, 1#1⟩
  | .ma _ => ⟨0#1, 1#1⟩

/-- The place in the Transaction grammar after one more event, none where the grammar does not allow it there
(40_bus_engine.md R132, R133). A sent byte right after a START or RESTART is an address+mode byte: its bit 0 is the mode. -/
def grammarStep (p : Phase) (e : WireEvent) : Option Phase :=
  match p, e with
  | .free, .start => some .started
  | .started, .tx b _ => some (if b.getLsbD 0 then .rxReady else .tx)
  | .tx, .tx _ _ => some .tx
  | .tx, .restart => some .started
  | .tx, .stop => some .free
  | .rxReady, .rx _ => some .rxNeedAck
  | .rxNeedAck, .ma k => some (if k = 0#1 then .rxReady else .rxDone)
  | .rxDone, .restart => some .started
  | .rxDone, .stop => some .free
  | _, _ => none

/-- The place in the grammar at the end of a trace, none where the trace is no beginning of a sequence of Transactions
(40_bus_engine.md R133). -/
def grammarPlace (trace : List WireEvent) : Option Phase :=
  trace.foldl (fun p e => p.bind fun q => grammarStep q e) (some .free)

/-- The acknowledge of the most recent sent byte of a trace (10_state.md R24, R39). -/
def lastAck (trace : List WireEvent) : Option Bit :=
  trace.foldl (fun a e => match e with | .tx _ v => some v | _ => a) none

/-- The most recent received byte of a trace (10_state.md R25). -/
def lastReceived (trace : List WireEvent) : Option Byte :=
  trace.foldl (fun a e => match e with | .rx d => some d | _ => a) none

/-- A slave address register holds `⊥` or an address with the driver's family code in bits 6:3 (10_state.md R43 (d)). -/
abbrev hasFamily (sa : Option Addr7) (family : BitVec 4) : Prop :=
  sa.all (fun a => a.extractLsb' 3 4 == family) = true

/-- The command in `SEQ_CMD` (10_state.md R27), none where it holds `⊥` or no command. -/
def latched (s : State) : Option Instr :=
  s.seqCmd.bind fun w => (decode w).toOption

/-- `SEQ_PC` points into the list of the latched command (30_encoding.md R98). -/
def pcInList (s : State) : Bool :=
  (latched s).any fun i => decide (s.seqPc.toNat < (prog i).length)

/-- The invariant of the registers (10_state.md R43; `DIV` fits `DIV_WIDTH`, R22). -/
structure RegInv (s : State) : Prop where
  /-- R43 (a) -/
  idlePc     : s.busy = false → s.seqPc = 0#6
  /-- R98, R99: a command in progress has a next micro-operation -/
  inProgress : s.busy = true → pcInList s = true
  /-- R43 (c) -/
  owedAck    : s.phase = .rxNeedAck → s.rxb.isSome = true
  /-- R43 (d) -/
  ee17Family : hasFamily s.ee17Sa s.cfg.famEE
  /-- R43 (d) -/
  ee12Family : hasFamily s.ee12Sa s.cfg.famEE
  /-- R43 (d) -/
  rtcFamily  : hasFamily s.rtcSa s.cfg.famRTC
  /-- R43 (d) -/
  gpxFamily  : hasFamily s.gpxSa s.cfg.famGPX
  /-- R22 -/
  divFits    : s.div.all (fun d => decide (d < 2 ^ s.cfg.divWidth)) = true
  /-- R21, R22: `OPEN` writes both -/
  openHasDiv : s.openf = true → s.div.isSome = true

/-- The invariant of the bus: the trace follows the Transaction grammar and ends where `PHASE` says (40_bus_engine.md R133), the
acknowledge latch and the receive buffer are those of the last byte of their kind (10_state.md R24, R25, R39), the lines are as
R140 says between primitives, and nothing is in progress on a bus that was never opened (R21). -/
structure BusInv (s : State) : Prop where
  grammar    : grammarPlace s.trace = some s.phase
  ackLatest  : s.ackl = lastAck s.trace
  rxbLatest  : s.rxb = lastReceived s.trace
  lines      : (⟨s.sclO, s.sdaO⟩ : Levels) = linesAt s.phase
  closedFree : s.openf = false → s.phase = .free

/-- The waveform of the last event, none before the first (40_bus_engine.md R146). -/
def lastWave (s : State) : List PinAction :=
  match s.trace.getLast? with
  | none => []
  | some e => waveform e

/-- How many sampling points a part of a waveform has (40_bus_engine.md R144). -/
def samplingPoints (acts : List PinAction) : Nat := acts.countP (· == .sample)

/-- The data line is released at every sampling point, from the levels `l` on (40_bus_engine.md R144, R145). -/
def releasedAtSamples : List PinAction → Levels → Bool
  | [], _ => true
  | a :: acts, l => (a != .sample || l.sda == 1#1) && releasedAtSamples acts (a.drive l)

/-- The invariant of the pin level: `PORT_IDLE` is 1 exactly when the last event's waveform has run to its end (40_bus_engine.md
R146); what is left of it is its last part; the bits sampled are the first of those the event carries and a sampling point is left
for each of the others (R145); the data line is released there; and run to its end it leaves the lines as `SCL_O` and `SDA_O` of
the block say (R140, log 12). -/
structure PinInv (p : PinState) : Prop where
  idle     : p.block.portIdle = p.wave.isEmpty
  part     : p.wave <:+ lastWave p.block
  drawn    : p.sampled <+: lastSlaveBits p.block
  owed     : p.sampled.length + samplingPoints p.wave = (lastSlaveBits p.block).length
  released : releasedAtSamples p.wave p.levels = true
  lines    : settle p.wave p.levels = ⟨p.block.sclO, p.block.sdaO⟩

/-- A final state of a finite host program (70_reset_and_hazards.md R262). -/
abbrev Final (s : State) : Prop :=
  (∀ m ∈ s.sched, ∀ w, m ≠ .present w) ∧ s.busy = false ∧ s.fault = .noFault

/-- The kind of an event, without the byte or bit it carries. -/
def WireEvent.kind : WireEvent → WireEvent
  | .start => .start
  | .restart => .restart
  | .stop => .stop
  | .tx _ _ => .tx 0#8 0#1
  | .rx _ => .rx 0#8
  | .ma k => .ma k

/-- A register that may hold `⊥`, as far as it is written or not. -/
def blank {α : Type} (zero : α) (r : Option α) : Option α := r.map fun _ => zero

/-- The course of a run: the state without the environment's answers and without every value that is made from them. -/
def course (s : State) : State :=
  { s with
    answers := [], draws := 0, ackl := blank 0#1 s.ackl, rxb := blank 0#8 s.rxb, rsp := blank 0#8 s.rsp,
    seqTmp := blank 0#8 s.seqTmp, rtcc := s.rtcc.map (blank 0#8), trace := s.trace.map WireEvent.kind }

/-- Premise: no device answers the next `n` draws: each acknowledge bit is 1 (20_memory.md R74). -/
def DeviceAbsent (n : Nat) (s : State) : Prop := ∀ k, k < n → (answerAt s k).ack = 1#1

/-- Premise: a device that withholds its acknowledge for `n` address bytes and then gives it (20_memory.md R71). -/
def AcksAfter (n : Nat) (s : State) : Prop :=
  (∀ k, k < n → (answerAt s k).ack = 1#1) ∧ (answerAt s n).ack = 0#1

/-- The moves in which the host presents the word `w` once and the block then runs `n` micro-steps. -/
def presentAndRun (w : Word) (n : Nat) : List Move := .present w :: List.replicate n .block

end Sys2Proof.Machine
end

