-- ==== Sys2Proof/Certificates/Slice0/Obligations.lean ====
section
/-! DEFINITION. The statements about the machine, for the provers. Each says which rule of the spec it formalises or rests on. -/

namespace Sys2Proof.Claims

open Sys2Proof Sys2Proof.Machine

/-- A row of the opcode map: the command with its columns `match` and `mask`. -/
abbrev Row := Opcode × Word × Word

/-- The rows of the Bus Engine, 30_encoding.md R96, written out from the spec. -/
def engineRows : List Row :=
  [(.busOpen, 0x04000000#32, 0xFFFFFF00#32), (.busBegin, 0x08000000#32, 0xFFFFFFFF#32),
   (.busRepeatBegin, 0x0C000000#32, 0xFFFFFFFF#32), (.busEnd, 0x10000000#32, 0xFFFFFFFF#32),
   (.sendAddress, 0x14000000#32, 0xFFFFFE80#32), (.sendByte, 0x18000000#32, 0xFFFFFF00#32),
   (.receiveByte, 0x1C000000#32, 0xFFFFFFFF#32), (.sendAck, 0x20000000#32, 0xFFFFFFFE#32),
   (.readAck, 0x24000000#32, 0xFFFFFFFF#32)]

/-- The rows of the EEPROM drivers, 30_encoding.md R96, written out from the spec. -/
def eepromRows : List Row :=
  [(.ee17Init, 0x40000000#32, 0xFFFFFFFC#32), (.ee17Read, 0x44000000#32, 0xFE0000FF#32),
   (.ee17Write, 0x48000000#32, 0xFE000000#32), (.ee17IsWriteBusy, 0x4C000000#32, 0xFFFFFFFF#32),
   (.ee12Init, 0x50000000#32, 0xFFFFFFF8#32), (.ee12Read, 0x54000000#32, 0xFFF000FF#32),
   (.ee12Write, 0x58000000#32, 0xFFF00000#32), (.ee12IsWriteBusy, 0x5C000000#32, 0xFFFFFFFF#32)]

/-- The rows of the RTC driver, 30_encoding.md R96, written out from the spec. -/
def rtcRows : List Row :=
  [(.rtcInit, 0x60000000#32, 0xFFFFFFF8#32), (.rtcRead, 0x64000000#32, 0xFFFFFF00#32),
   (.rtcWrite, 0x68000000#32, 0xFFFF0000#32), (.rtcGetClock, 0x6C000000#32, 0xFFFFFFFF#32),
   (.rtcSetClock, 0x70000000#32, 0xFFFFFFFF#32), (.rtcStopClock, 0x74000000#32, 0xFFFFFFFF#32),
   (.rtcStartClock, 0x78000000#32, 0xFFFFFFFF#32), (.rtcCacheGet, 0x7C000000#32, 0xFFFFFFF8#32),
   (.rtcCachePut, 0x80000000#32, 0xFFFFF800#32)]

/-- The rows of the GPIO-expander driver, 30_encoding.md R96, written out from the spec. -/
def gpxRows : List Row :=
  [(.gpxInit, 0x90000000#32, 0xFFFFFFF8#32), (.gpxRead, 0x94000000#32, 0xFFFFFF00#32),
   (.gpxWrite, 0x98000000#32, 0xFFFF0000#32)]

/-- The opcode map of 30_encoding.md R96. -/
def opcodeRows : List Row := engineRows ++ eepromRows ++ rtcRows ++ gpxRows

/-- The word passes the test of a row: `cmd & mask = match` (30_encoding.md R92). -/
abbrev passes (w : Word) (r : Row) : Prop := w &&& r.2.2 = r.2.1

/-- The nine Bus Engine commands (40_bus_engine.md R120). -/
def engineOpcodes : List Opcode :=
  [.busOpen, .busBegin, .busRepeatBegin, .busEnd, .sendAddress, .sendByte, .receiveByte, .sendAck, .readAck]

/-- The local commands: those with an empty list (30_encoding.md R93). -/
def localOpcodes : List Opcode := [.busOpen, .ee17Init, .ee12Init, .rtcInit, .gpxInit, .rtcCacheGet, .rtcCachePut]

/-- The commands that send a byte, address+mode bytes included (40_bus_engine.md R127, R128, 41_eeprom.md, 42_rtc.md,
43_gpio_expander.md): the writers of `ACKL`. -/
def sendingOpcodes : List Opcode :=
  [.sendAddress, .sendByte, .ee17Read, .ee17Write, .ee17IsWriteBusy, .ee12Read, .ee12Write, .ee12IsWriteBusy, .rtcRead, .rtcWrite,
   .rtcGetClock, .rtcSetClock, .rtcStopClock, .rtcStartClock, .gpxRead, .gpxWrite]

/-- The commands that receive a byte (40_bus_engine.md R129, 41_eeprom.md, 42_rtc.md, 43_gpio_expander.md): the writers of
`RXB`. -/
def receivingOpcodes : List Opcode :=
  [.receiveByte, .ee17Read, .ee12Read, .rtcRead, .rtcGetClock, .rtcSetClock, .rtcStopClock, .rtcStartClock, .gpxRead]

/-- The driver commands that use the bus, with the address register each reads (41_eeprom.md, 42_rtc.md, 43_gpio_expander.md). -/
def addressRegister : Opcode → Option (State → Option Addr7)
  | .ee17Read | .ee17Write | .ee17IsWriteBusy => some State.ee17Sa
  | .ee12Read | .ee12Write | .ee12IsWriteBusy => some State.ee12Sa
  | .rtcRead | .rtcWrite | .rtcGetClock | .rtcSetClock | .rtcStopClock | .rtcStartClock => some State.rtcSa
  | .gpxRead | .gpxWrite => some State.gpxSa
  | .busOpen | .busBegin | .busRepeatBegin | .busEnd | .sendAddress | .sendByte | .receiveByte | .sendAck | .readAck
  | .ee17Init | .ee12Init | .rtcInit | .gpxInit | .rtcCacheGet | .rtcCachePut => none

/-- `FAULT <- c` and `FAULT_INFO <- w`, nothing else (60_exceptions.md R211). -/
abbrev faulted (c : FaultCode) (w : Word) (s : State) : State := { s with fault := c, faultInfo := some w }

/-- The command word `w` is latched and its list starts (30_encoding.md R93, case 4). -/
abbrev latch (w : Word) (s : State) : State := { s with seqCmd := some w, seqPc := 0#6, busy := true }

/-- The command is over: `BUSY <- 0; pc <- 0` (30_encoding.md R100). -/
abbrev completed (s : State) : State := { s with busy := false, seqPc := 0#6 }

/-- A completed Transaction: `n` answers drawn, the events added, the acknowledge of draw `k` latched, the bus released, and the
command `w` over. -/
abbrev transacted (w : Word) (n k : Nat) (events : List WireEvent) (s : State) : State :=
  { drawn n s with
    seqCmd := some w, busy := false, seqPc := 0#6, phase := .free, sclO := 1#1, sdaO := 1#1,
    ackl := some (answerAt s k).ack, trace := s.trace ++ events }

/-- The command `i`, presented in `s`, is accepted with the acceptance effects that make `s` into `s1` and is in progress; the block
then runs its list, one micro-operation a step and no other agent moving, to the end, leaving `u`. -/
abbrev RunsTo (i : Instr) (s s1 u : State) : Prop :=
  exec i s = .next (latch (encode i) s1) ∧ runBlock (prog i).length (latch (encode i) s1) = .next u

/-- The event of draw `k` for a sent address+mode byte. -/
abbrev addr (s : State) (a : Addr7) (m : Mode) (k : Nat) : WireEvent := .tx (addressByte a m) (answerAt s k).ack

/-- The event of draw `k` for a sent data byte. -/
abbrev sent (s : State) (b : Byte) (k : Nat) : WireEvent := .tx b (answerAt s k).ack

/-- The byte received at draw `k`. -/
abbrev got (s : State) (k : Nat) : Byte := (answerAt s k).data

/-- The events of a read transaction after its index or offset bytes: RESTART, address+R, one byte, NACK, STOP. -/
abbrev readTail (s : State) (a : Addr7) (k : Nat) : List WireEvent :=
  [.restart, addr s a .read k, .rx (got s (k + 1)), .ma 1#1, .stop]

/-- The events of the pull, 42_rtc.md R183. -/
abbrev pullEvents (s : State) (a : Addr7) : List WireEvent :=
  [.start, addr s a .write 0, sent s s.cfg.rtcBase 1, .restart, addr s a .read 2, .rx (got s 3), .ma 0#1, .rx (got s 4), .ma 0#1,
   .rx (got s 5), .ma 0#1, .rx (got s 6), .ma 0#1, .rx (got s 7), .ma 0#1, .rx (got s 8), .ma 0#1, .rx (got s 9), .ma 0#1,
   .rx (got s 10), .ma 1#1, .stop]

/-- The events of a clock stop or start whose first draw is number `k` and whose last byte is `b`, 42_rtc.md R186. -/
abbrev haltEvents (s : State) (a : Addr7) (k : Nat) (b : Byte) : List WireEvent :=
  [.start, addr s a .write k, sent s s.cfg.chReg (k + 1), .restart, addr s a .read (k + 2), .rx (got s (k + 3)), .ma 1#1, .stop,
   .start, addr s a .write (k + 4), sent s s.cfg.chReg (k + 5), sent s b (k + 6), .stop]

/-- The events of the burst write whose first draw is number `k`, of the seven bytes `c 0` to `c 6`, 42_rtc.md R184. -/
abbrev burstEvents (s : State) (a : Addr7) (k : Nat) (c : Fin 8 → Byte) : List WireEvent :=
  [.start, addr s a .write k, sent s s.cfg.rtcBase (k + 1), sent s (c 0) (k + 2), sent s (c 1) (k + 3), sent s (c 2) (k + 4),
   sent s (c 3) (k + 5), sent s (c 4) (k + 6), sent s (c 5) (k + 7), sent s (c 6) (k + 8), .stop]

/-- What a waveform samples when every `rise` is met at once: `sda_i` at its sampling points (40_bus_engine.md R145). -/
def sampledAt (acts : List PinAction) (lines : List LineIn) : List Bit :=
  (acts.zip lines).filterMap fun x => if x.1 = .sample then some x.2.sda else none

/-- The acknowledge bit of a sent byte, or the byte of a received one, is that of the answer (00_scope.md R10, R11). -/
def carries (e : WireEvent) (x : Answer) : Prop :=
  match e with
  | .tx _ a => a = x.ack
  | .rx d => d = x.data
  | .start => True
  | .restart => True
  | .stop => True
  | .ma _ => True

/-- The actions of a waveform before its first `rise`. -/
abbrev beforeRise (acts : List PinAction) : List PinAction := acts.takeWhile (· ≠ .rise)

/-- The actions of a waveform from its first `rise` on. -/
abbrev fromRise (acts : List PinAction) : List PinAction := acts.dropWhile (· ≠ .rise)

end Sys2Proof.Claims

open Sys2Proof Sys2Proof.Machine Sys2Proof.Claims

/-! ## Encoding -/

/-- Decoding a command's word gives the command back (30_encoding.md R90 to R92, R96). -/
def Obligations.DecodeOfEncodeIsTheCommand : Prop :=
  ∀ i : Instr, decode (encode i) = .ok i

/-- A word has one meaning: encoding what a word decodes to gives the word back (30_encoding.md R90 to R92). -/
def Obligations.EncodeOfDecodedIsTheWord : Prop :=
  ∀ (w : Word) (i : Instr), decode w = .ok i → encode i = w

/-- 30_encoding.md R92: a word is the command of a row exactly if it passes the row's test, it passes at most one row's test, and
a word that passes none is illegal. -/
def Obligations.EveryWordIsOneCommandOrIllegal : Prop :=
  ∀ w : Word,
    (∀ r ∈ opcodeRows, passes w r → ∃ i, decode w = .ok i ∧ i.opcode = r.1)
    ∧ (∀ i, decode w = .ok i → ∃ r ∈ opcodeRows, r.1 = i.opcode ∧ passes w r)
    ∧ ((∀ r ∈ opcodeRows, ¬ passes w r) → ∃ e, decode w = .error e)
    ∧ ∀ r ∈ opcodeRows, ∀ r' ∈ opcodeRows, passes w r → passes w r' → r = r'

/-- Words of 95_test_vectors.md section 2.1, one for each family, decode to the commands they stand for. -/
def Obligations.SampleWordsDecode : Prop :=
  decode 0x04000001#32 = .ok (.busOpen 0x01#8)
  ∧ decode 0x14000150#32 = .ok (.sendAddress 0x50#7 .read)
  ∧ decode 0x20000001#32 = .ok (.sendAck 1#1)
  ∧ decode 0x49ABCD5A#32 = .ok (.ee17Write 0x1ABCD#17 0x5A#8)
  ∧ decode 0x540ABC00#32 = .ok (.ee12Read 0xABC#12)
  ∧ decode 0x68000710#32 = .ok (.rtcWrite 0x07#8 0x10#8)
  ∧ decode 0x800007FF#32 = .ok (.rtcCachePut 7#3 0xFF#8)
  ∧ decode 0x980000FF#32 = .ok (.gpxWrite 0x00#8 0xFF#8)
  ∧ decode 0x14000080#32 = .error .mustBeZeroSet
  ∧ decode 0x84000000#32 = .error .unknownOpcode

/-- 30_encoding.md R107, R212: the opcodes that are in no row, and a presented illegal word: `FAULT` and `FAULT_INFO` are its
only effect. -/
def Obligations.IllegalWordsFaultWithoutEffect : Prop :=
  (∀ w : Word, decode w = .error .unknownOpcode ↔
    (w.extractLsb' 26 6 = 0x00#6 ∨ (0x0A#6 ≤ w.extractLsb' 26 6 ∧ w.extractLsb' 26 6 ≤ 0x0F#6)
      ∨ (0x21#6 ≤ w.extractLsb' 26 6 ∧ w.extractLsb' 26 6 ≤ 0x23#6) ∨ 0x27#6 ≤ w.extractLsb' 26 6))
  ∧ (∀ (s : State) (w : Word) (ms : List Move) (e : DecodeError),
      s.sched = .present w :: ms → Idle s → decode w = .error e →
      step s = .next (faulted .illegalCmd w { s with sched := ms }))

/-- 30_encoding.md R103: the address+mode byte is `(addr7 << 1) | mode`, and the shift loses no bit. -/
def Obligations.AddressByteIsShiftedAddressOrMode : Prop :=
  ∀ (a : Addr7) (m : Mode),
    addressByte a m = (a.setWidth 8 <<< 1 ||| m.bit.setWidth 8)
    ∧ (addressByte a m).extractLsb' 1 7 = a ∧ (addressByte a m).extractLsb' 0 1 = m.bit

/-- 30_encoding.md R105, 20_memory.md R62: the bank bit and the two offset bytes carry every bit of a 17-bit offset once; the
two bytes of a 12-bit offset carry it under four zeros. -/
def Obligations.OffsetBytesCarryTheOffsetOnce : Prop :=
  (∀ off : BitVec 17, bank17 off ++ hi17 off ++ lo17 off = off)
  ∧ ∀ off : BitVec 12, hi12 off ++ lo12 off = 0#4 ++ off

/-- 41_eeprom.md R160, R161: recomputing the bank bit replaces bit 2 and keeps bits 6:3 and 1:0. -/
def Obligations.BankBitReplacesOnlyBitTwo : Prop :=
  ∀ (a : Addr7) (b : Bit),
    (withBank a b).extractLsb' 2 1 = b ∧ (withBank a b).extractLsb' 3 4 = a.extractLsb' 3 4
    ∧ (withBank a b).extractLsb' 0 2 = a.extractLsb' 0 2

/-! ## Steps -/

/-- A word presented to the idle block that decodes to `i` makes the step `exec i`, the presentation consumed; `withFetchWord`
presents it (30_encoding.md R93; log 17). -/
def Obligations.PresentedWordRunsItsCommand : Prop :=
  (∀ (s : State) (w : Word) (ms : List Move) (i : Instr),
    s.sched = .present w :: ms → Idle s → decode w = .ok i → step s = exec i { s with sched := ms })
  ∧ ∀ (s : State) (w : Word) (i : Instr),
    Idle s → decode w = .ok i → step (s.withFetchWord 32 w.toNat) = exec i s

/-- While a command is in progress, a block step, listed or not, is `exec` of the command latched in `SEQ_CMD` (30_encoding.md
R99; log 4). -/
def Obligations.BlockStepRunsTheLatchedCommand : Prop :=
  ∀ (s : State) (w : Word) (i : Instr),
    s.fault = .noFault → s.busy = true → s.seqCmd = some w → decode w = .ok i →
    (s.sched = [] → step s = exec i s)
    ∧ ∀ ms, s.sched = .block :: ms → step s = exec i { s with sched := ms }

/-- The runs of a command that `RunsTo` speaks of are runs of the machine: with no move listed, and with as many block moves
listed as there are steps (30_encoding.md R99, 70_reset_and_hazards.md R262; logs 3, 4). -/
def Obligations.BlockRunsAreRunsOfTheMachine : Prop :=
  (∀ (n : Nat) (s : State), s.sched = [] → Host.Core.run Sys2Proof.core n s = runBlock n s)
  ∧ ∀ (n : Nat) (s t : State) (ms : List Move),
    s.sched = List.replicate n .block ++ ms → runBlock n { s with sched := ms } = .next t →
    Host.Core.run Sys2Proof.core n s = .next t

/-- 30_encoding.md R93: the first case that applies, for every presented word. -/
def Obligations.AcceptanceTakesTheFirstCase : Prop :=
  ∀ (s s' : State) (w : Word) (ms : List Move), s.sched = .present w :: ms → s' = { s with sched := ms } →
    (s.fault ≠ .noFault → step s = .next s')
    ∧ (s.fault = .noFault → s.busy = true → step s = .next (faulted .reentry w s'))
    ∧ (Idle s → ∀ e, decode w = .error e → step s = .next (faulted .illegalCmd w s'))
    ∧ (Idle s → ∀ i, decode w = .ok i →
        (∀ c, acceptEffects i s' = .error c → step s = .next (faulted c w s'))
        ∧ (∀ t, acceptEffects i s' = .ok t →
            (i.opcode ∈ localOpcodes → step s = .next t ∧ t.busy = false)
            ∧ (i.opcode ∉ localOpcodes → step s = .next (latch w t))))

/-- 60_exceptions.md R211, 30_encoding.md R93 case 1: while a fault stands, every step other than reset leaves every register of
the block as it is; the schedule and the environment's `PORT_IDLE` alone move. -/
def Obligations.FaultedBlockIsStoppedUntilReset : Prop :=
  ∀ s : State, s.fault ≠ .noFault → s.sched.head? ≠ some .reset →
    ∃ t, step s = .next t ∧ { t with sched := s.sched, portIdle := s.portIdle } = s

/-- 10_state.md R50: the value reset leaves in every register, from any state (reset as a move: logs 3, 7). -/
def Obligations.ResetLeavesTheResetValues : Prop :=
  ∀ (s : State) (ms : List Move), s.sched = .reset :: ms →
    ∃ t, step s = .next t
      ∧ t.openf = false ∧ t.phase = .free ∧ t.busy = false ∧ t.seqPc = 0#6 ∧ t.fault = .noFault ∧ t.trace = []
      ∧ t.sclO = 1#1 ∧ t.sdaO = 1#1
      ∧ t.div = none ∧ t.ackl = none ∧ t.rxb = none ∧ t.seqCmd = none ∧ t.seqTmp = none ∧ t.rsp = none
      ∧ t.faultInfo = none ∧ t.ee17Sa = none ∧ t.ee12Sa = none ∧ t.rtcSa = none ∧ t.gpxSa = none
      ∧ (∀ i, cacheAt t i = none)

/-- 40_bus_engine.md R122, 30_encoding.md R99, 60_exceptions.md R223: the checks of a micro-step in their order, for every
command and every place in its list. -/
def Obligations.MicroStepChecksInOrder : Prop :=
  ∀ (i : Instr) (u : MicroOp) (s : State), InProgress i u s →
    (s.openf = false → exec i s = .next (faulted .notOpen (encode i) s))
    ∧ (s.openf = true → legalPhase u s.phase = false → exec i s = .next (faulted .protocol (encode i) s))
    ∧ (s.openf = true → legalPhase u s.phase = true → readOperands u s = none →
        exec i s = .next (faulted .unwritten (encode i) s))
    ∧ (∀ p, s.openf = true → legalPhase u s.phase = true → readOperands u s = some p → s.portIdle = false →
        exec i s = .next s)
    ∧ (∀ p, s.openf = true → legalPhase u s.phase = true → readOperands u s = some p → s.portIdle = true →
        ∃ t, exec i s = .next t ∧ t.fault = .noFault
          ∧ (s.seqPc.toNat + 1 = (prog i).length → t.busy = false ∧ t.seqPc = 0#6)
          ∧ (s.seqPc.toNat + 1 < (prog i).length → t.busy = true ∧ t.seqPc.toNat = s.seqPc.toNat + 1))

/-- 40_bus_engine.md R122: the legality table, phase by phase. -/
def Obligations.LegalPhasesAreThoseOfTheTable : Prop :=
  ∀ p : Phase,
    (legalPhase .start p = true ↔ p = .free)
    ∧ (legalPhase .restart p = true ↔ p = .tx ∨ p = .rxDone)
    ∧ (legalPhase .stop p = true ↔ p = .tx ∨ p = .rxDone)
    ∧ (∀ x m, legalPhase (.sa x m) p = true ↔ p = .started)
    ∧ (∀ e, legalPhase (.sb e) p = true ↔ p = .tx)
    ∧ (∀ d, legalPhase (.rcv d) p = true ↔ p = .rxReady)
    ∧ (∀ k, legalPhase (.ack k) p = true ↔ p = .rxNeedAck)
    ∧ (legalPhase .rdack p = true ↔ p ≠ .rxNeedAck)

/-- 60_exceptions.md R219, 40_bus_engine.md R121: while `PORT_IDLE` stays 0 a pending micro-operation that passes its checks
never executes, for any number of steps. -/
def Obligations.HangLastsForEver : Prop :=
  ∀ (s : State) (i : Instr) (u : MicroOp) (p : Primitive) (n : Nat),
    InProgress i u s → latched s = some i → s.openf = true → legalPhase u s.phase = true → readOperands u s = some p →
    s.portIdle = false → s.sched = [] →
    Host.Core.run Sys2Proof.core n s = .next s

/-! ## Bus Engine commands -/

/-- 40_bus_engine.md R123: `OPEN(rate)`. -/
def Obligations.OpenConfiguresTheBus : Prop :=
  ∀ (rate : Byte) (s : State), Idle s →
    encode (.busOpen rate) = 0x04000000#32 ||| rate.setWidth 32
    ∧ (s.phase ≠ .free → exec (.busOpen rate) s = .next (faulted .protocol (encode (.busOpen rate)) s))
    ∧ (s.phase = .free → divisorOf s.cfg rate = none →
        exec (.busOpen rate) s = .next (faulted .config (encode (.busOpen rate)) s))
    ∧ (∀ d, s.phase = .free → divisorOf s.cfg rate = some d →
        d < 2 ^ s.cfg.divWidth
        ∧ exec (.busOpen rate) s = .next { s with div := some d, openf := true, sclO := 1#1, sdaO := 1#1 })

/-- 30_encoding.md R93: the eight bus primitives as commands are accepted by the idle block, whatever `OPENF` and `PHASE` are:
their checks are those of the micro-step. -/
def Obligations.BusPrimitivesAreAcceptedUnchecked : Prop :=
  ∀ (i : Instr) (s : State), i.opcode ∈ engineOpcodes → i.opcode ≠ .busOpen → Idle s →
    exec i s = .next (latch (encode i) s) ∧ (prog i).length = 1

/-- 40_bus_engine.md R124: `BEGIN`. -/
def Obligations.BeginSignalsStart : Prop :=
  ∀ s : State, InProgress .busBegin .start s →
    encode .busBegin = 0x08000000#32
    ∧ (s.openf = false → exec .busBegin s = .next (faulted .notOpen 0x08000000#32 s))
    ∧ (s.openf = true → s.phase ≠ .free → exec .busBegin s = .next (faulted .protocol 0x08000000#32 s))
    ∧ (s.openf = true → s.phase = .free → s.portIdle = false → exec .busBegin s = .next s)
    ∧ (s.openf = true → s.phase = .free → s.portIdle = true →
        exec .busBegin s = .next
          { completed s with phase := .started, trace := s.trace ++ [.start], sclO := 0#1, sdaO := 0#1 })

/-- 40_bus_engine.md R125: `REPEAT_BEGIN`. -/
def Obligations.RepeatBeginSignalsRestart : Prop :=
  ∀ s : State, InProgress .busRepeatBegin .restart s →
    encode .busRepeatBegin = 0x0C000000#32
    ∧ (s.openf = false → exec .busRepeatBegin s = .next (faulted .notOpen 0x0C000000#32 s))
    ∧ (s.openf = true → s.phase ≠ .tx → s.phase ≠ .rxDone →
        exec .busRepeatBegin s = .next (faulted .protocol 0x0C000000#32 s))
    ∧ (s.openf = true → (s.phase = .tx ∨ s.phase = .rxDone) → s.portIdle = false → exec .busRepeatBegin s = .next s)
    ∧ (s.openf = true → (s.phase = .tx ∨ s.phase = .rxDone) → s.portIdle = true →
        exec .busRepeatBegin s = .next
          { completed s with phase := .started, trace := s.trace ++ [.restart], sclO := 0#1, sdaO := 0#1 })

/-- 40_bus_engine.md R126: `END`. -/
def Obligations.EndSignalsStop : Prop :=
  ∀ s : State, InProgress .busEnd .stop s →
    encode .busEnd = 0x10000000#32
    ∧ (s.openf = false → exec .busEnd s = .next (faulted .notOpen 0x10000000#32 s))
    ∧ (s.openf = true → s.phase ≠ .tx → s.phase ≠ .rxDone → exec .busEnd s = .next (faulted .protocol 0x10000000#32 s))
    ∧ (s.openf = true → (s.phase = .tx ∨ s.phase = .rxDone) → s.portIdle = false → exec .busEnd s = .next s)
    ∧ (s.openf = true → (s.phase = .tx ∨ s.phase = .rxDone) → s.portIdle = true →
        exec .busEnd s = .next
          { completed s with phase := .free, trace := s.trace ++ [.stop], sclO := 1#1, sdaO := 1#1 })

/-- 40_bus_engine.md R127: `SEND_ADDRESS(addr7, mode)`, acknowledged or not. -/
def Obligations.SendAddressSendsAndLatches : Prop :=
  ∀ (a : Addr7) (m : Mode) (s : State), InProgress (.sendAddress a m) (.sa (.word a) m) s →
    encode (.sendAddress a m) = 0x14000000#32 ||| m.bit.setWidth 32 <<< 8 ||| a.setWidth 32
    ∧ (s.openf = false → exec (.sendAddress a m) s = .next (faulted .notOpen (encode (.sendAddress a m)) s))
    ∧ (s.openf = true → s.phase ≠ .started →
        exec (.sendAddress a m) s = .next (faulted .protocol (encode (.sendAddress a m)) s))
    ∧ (s.openf = true → s.phase = .started → s.portIdle = false → exec (.sendAddress a m) s = .next s)
    ∧ (s.openf = true → s.phase = .started → s.portIdle = true →
        exec (.sendAddress a m) s = .next
          { completed (drawn 1 s) with
            trace := s.trace ++ [.tx (a ++ m.bit) (answerAt s 0).ack], ackl := some (answerAt s 0).ack,
            phase := (match m with | .write => .tx | .read => .rxReady), sclO := 0#1, sdaO := 1#1 })

/-- 40_bus_engine.md R128: `SEND_BYTE(b)`, acknowledged or not. -/
def Obligations.SendByteSendsAndLatches : Prop :=
  ∀ (b : Byte) (s : State), InProgress (.sendByte b) (.sb (.word b)) s →
    encode (.sendByte b) = 0x18000000#32 ||| b.setWidth 32
    ∧ (s.openf = false → exec (.sendByte b) s = .next (faulted .notOpen (encode (.sendByte b)) s))
    ∧ (s.openf = true → s.phase ≠ .tx → exec (.sendByte b) s = .next (faulted .protocol (encode (.sendByte b)) s))
    ∧ (s.openf = true → s.phase = .tx → s.portIdle = false → exec (.sendByte b) s = .next s)
    ∧ (s.openf = true → s.phase = .tx → s.portIdle = true →
        exec (.sendByte b) s = .next
          { completed (drawn 1 s) with
            trace := s.trace ++ [.tx b (answerAt s 0).ack], ackl := some (answerAt s 0).ack,
            phase := .tx, sclO := 0#1, sdaO := 1#1 })

/-- 40_bus_engine.md R129: `RECEIVE_BYTE`. -/
def Obligations.ReceiveByteReturnsTheByte : Prop :=
  ∀ s : State, InProgress .receiveByte (.rcv .rsp) s →
    encode .receiveByte = 0x1C000000#32
    ∧ (s.openf = false → exec .receiveByte s = .next (faulted .notOpen 0x1C000000#32 s))
    ∧ (s.openf = true → s.phase ≠ .rxReady → exec .receiveByte s = .next (faulted .protocol 0x1C000000#32 s))
    ∧ (s.openf = true → s.phase = .rxReady → s.portIdle = false → exec .receiveByte s = .next s)
    ∧ (s.openf = true → s.phase = .rxReady → s.portIdle = true →
        exec .receiveByte s = .next
          { completed (drawn 1 s) with
            trace := s.trace ++ [.rx (answerAt s 0).data], rxb := some (answerAt s 0).data,
            rsp := some (answerAt s 0).data, phase := .rxNeedAck, sclO := 0#1, sdaO := 1#1 })

/-- 40_bus_engine.md R130: `SEND_ACK(k)`, 0 = ACK, 1 = NACK. -/
def Obligations.SendAckDrivesTheSlot : Prop :=
  ∀ (k : Bit) (s : State), InProgress (.sendAck k) (.ack k) s →
    encode (.sendAck k) = 0x20000000#32 ||| k.setWidth 32
    ∧ (s.openf = false → exec (.sendAck k) s = .next (faulted .notOpen (encode (.sendAck k)) s))
    ∧ (s.openf = true → s.phase ≠ .rxNeedAck → exec (.sendAck k) s = .next (faulted .protocol (encode (.sendAck k)) s))
    ∧ (s.openf = true → s.phase = .rxNeedAck → s.portIdle = false → exec (.sendAck k) s = .next s)
    ∧ (s.openf = true → s.phase = .rxNeedAck → s.portIdle = true →
        exec (.sendAck k) s = .next
          { completed s with
            trace := s.trace ++ [.ma k], phase := (if k = 0#1 then .rxReady else .rxDone), sclO := 0#1, sdaO := 1#1 })

/-- 40_bus_engine.md R131: `READ_ACK`. That it leaves the two lines as they are, in `PHASE` `STARTED` too, where R140's words would
give `SDA_O = 1`, is the model's reading (log 22). -/
def Obligations.ReadAckReturnsTheLatch : Prop :=
  ∀ s : State, InProgress .readAck .rdack s →
    encode .readAck = 0x24000000#32
    ∧ (s.openf = false → exec .readAck s = .next (faulted .notOpen 0x24000000#32 s))
    ∧ (s.openf = true → s.phase = .rxNeedAck → exec .readAck s = .next (faulted .protocol 0x24000000#32 s))
    ∧ (s.openf = true → s.phase ≠ .rxNeedAck → s.ackl = none →
        exec .readAck s = .next (faulted .unwritten 0x24000000#32 s))
    ∧ (∀ a, s.openf = true → s.phase ≠ .rxNeedAck → s.ackl = some a → s.portIdle = false → exec .readAck s = .next s)
    ∧ (∀ a, s.openf = true → s.phase ≠ .rxNeedAck → s.ackl = some a → s.portIdle = true →
        exec .readAck s = .next { completed s with rsp := some (0#7 ++ a) })

/-! ## Local driver commands -/

/-- 30_encoding.md R104, 20_memory.md R61: the four `*_INIT` commands, on an open bus or not. -/
def Obligations.InitCommandsSetTheirAddress : Prop :=
  ∀ s : State, Idle s →
    (∀ p, exec (.ee17Init p) s = .next { s with ee17Sa := some (s.cfg.famEE ++ 0#1 ++ p) })
    ∧ (∀ p, exec (.ee12Init p) s = .next { s with ee12Sa := some (s.cfg.famEE ++ p) })
    ∧ (∀ p, exec (.rtcInit p) s = .next { s with rtcSa := some (s.cfg.famRTC ++ p) })
    ∧ (∀ p, exec (.gpxInit p) s = .next { s with gpxSa := some (s.cfg.famGPX ++ p) })

/-- 42_rtc.md R188: `RTC_CACHE_GET(idx)`. -/
def Obligations.CacheGetReturnsTheEntry : Prop :=
  ∀ (idx : BitVec 3) (s : State), Idle s →
    encode (.rtcCacheGet idx) = 0x7C000000#32 ||| idx.setWidth 32
    ∧ (∀ v, cacheAt s idx.toFin = some v → exec (.rtcCacheGet idx) s = .next { s with rsp := some v })
    ∧ (cacheAt s idx.toFin = none → exec (.rtcCacheGet idx) s = .next (faulted .unwritten (encode (.rtcCacheGet idx)) s))

/-- 42_rtc.md R189, R188: `RTC_CACHE_PUT(idx, data)` writes its entry and nothing else, and a following `RTC_CACHE_GET(idx)` returns
the byte. -/
def Obligations.CachePutWritesOneEntry : Prop :=
  ∀ (idx : BitVec 3) (v : Byte) (s : State), Idle s →
    encode (.rtcCachePut idx v) = 0x80000000#32 ||| idx.setWidth 32 <<< 8 ||| v.setWidth 32
    ∧ ∃ t, exec (.rtcCachePut idx v) s = .next t
      ∧ cacheAt t idx.toFin = some v ∧ (∀ j, j ≠ idx.toFin → cacheAt t j = cacheAt s j) ∧ { t with rtcc := s.rtcc } = s
      ∧ exec (.rtcCacheGet idx) t = .next { t with rsp := some v }

/-- 60_exceptions.md R215, 70_reset_and_hazards.md R241: a driver command that uses the bus faults at acceptance while its
address register is unwritten; `RTC_SET_CLOCK` also while an entry it pushes is. -/
def Obligations.DriverCommandsNeedTheirRegisters : Prop :=
  (∀ (i : Instr) (s : State) (x : State → Option Addr7), Idle s → addressRegister i.opcode = some x → x s = none →
    exec i s = .next (faulted .unwritten (encode i) s))
  ∧ ∀ (s : State) (j : Fin 8), Idle s → j.val < 7 → cacheAt s j = none →
    exec .rtcSetClock s = .next (faulted .unwritten 0x70000000#32 s)

/-! ## Driver commands that use the bus: acceptance, then the whole list -/

/-- 41_eeprom.md R161: `EE17_READ(off)`. -/
def Obligations.Ee17ReadRunsToItsEnd : Prop :=
  ∀ (off : BitVec 17) (a a' : Addr7) (s : State), Ready s → s.ee17Sa = some a → a' = withBank a (bank17 off) →
    RunsTo (.ee17Read off) s { s with ee17Sa := some a' }
      { transacted (encode (.ee17Read off)) 5 3
          ([.start, addr s a' .write 0, sent s (hi17 off) 1, sent s (lo17 off) 2] ++ readTail s a' 3) s with
        ee17Sa := some a', rxb := some (got s 4), rsp := some (got s 4) }

/-- 41_eeprom.md R162: `EE17_WRITE(off, data)`. -/
def Obligations.Ee17WriteRunsToItsEnd : Prop :=
  ∀ (off : BitVec 17) (v : Byte) (a a' : Addr7) (s : State), Ready s → s.ee17Sa = some a → a' = withBank a (bank17 off) →
    RunsTo (.ee17Write off v) s { s with ee17Sa := some a' }
      { transacted (encode (.ee17Write off v)) 4 3
          [.start, addr s a' .write 0, sent s (hi17 off) 1, sent s (lo17 off) 2, sent s v 3, .stop] s with
        ee17Sa := some a' }

/-- 41_eeprom.md R163, R167: the two write-busy polls return the acknowledge of the address byte, 0x01 for none. -/
def Obligations.WriteBusyPollsReturnTheAcknowledge : Prop :=
  ∀ (a : Addr7) (s : State), Ready s →
    (s.ee17Sa = some a → RunsTo .ee17IsWriteBusy s s
      { transacted 0x4C000000#32 1 0 [.start, addr s a .write 0, .stop] s with
        rsp := some (if (answerAt s 0).ack = 1#1 then 0x01#8 else 0x00#8) })
    ∧ (s.ee12Sa = some a → RunsTo .ee12IsWriteBusy s s
      { transacted 0x5C000000#32 1 0 [.start, addr s a .write 0, .stop] s with
        rsp := some (if (answerAt s 0).ack = 1#1 then 0x01#8 else 0x00#8) })

/-- 41_eeprom.md R165: `EE12_READ(off)`. -/
def Obligations.Ee12ReadRunsToItsEnd : Prop :=
  ∀ (off : BitVec 12) (a : Addr7) (s : State), Ready s → s.ee12Sa = some a →
    RunsTo (.ee12Read off) s s
      { transacted (encode (.ee12Read off)) 5 3
          ([.start, addr s a .write 0, sent s (0#4 ++ off.extractLsb' 8 4) 1, sent s (off.extractLsb' 0 8) 2]
            ++ readTail s a 3) s with
        rxb := some (got s 4), rsp := some (got s 4) }

/-- 41_eeprom.md R166: `EE12_WRITE(off, data)`. -/
def Obligations.Ee12WriteRunsToItsEnd : Prop :=
  ∀ (off : BitVec 12) (v : Byte) (a : Addr7) (s : State), Ready s → s.ee12Sa = some a →
    RunsTo (.ee12Write off v) s s
      (transacted (encode (.ee12Write off v)) 4 3
        [.start, addr s a .write 0, sent s (0#4 ++ off.extractLsb' 8 4) 1, sent s (off.extractLsb' 0 8) 2, sent s v 3, .stop]
        s)

/-- 42_rtc.md R181, 43_gpio_expander.md R201: `RTC_READ(reg)` and `GPX_READ(reg)`. -/
def Obligations.RegisterReadsRunToTheirEnd : Prop :=
  ∀ (reg : Byte) (a : Addr7) (s : State), Ready s →
    (s.rtcSa = some a → RunsTo (.rtcRead reg) s s
      { transacted (encode (.rtcRead reg)) 4 2 ([.start, addr s a .write 0, sent s reg 1] ++ readTail s a 2) s with
        rxb := some (got s 3), rsp := some (got s 3) })
    ∧ (s.gpxSa = some a → RunsTo (.gpxRead reg) s s
      { transacted (encode (.gpxRead reg)) 4 2 ([.start, addr s a .write 0, sent s reg 1] ++ readTail s a 2) s with
        rxb := some (got s 3), rsp := some (got s 3) })

/-- 42_rtc.md R182, 43_gpio_expander.md R202: `RTC_WRITE(reg, data)` and `GPX_WRITE(reg, data)`. -/
def Obligations.RegisterWritesRunToTheirEnd : Prop :=
  ∀ (reg v : Byte) (a : Addr7) (s : State), Ready s →
    (s.rtcSa = some a → RunsTo (.rtcWrite reg v) s s
      (transacted (encode (.rtcWrite reg v)) 3 2 [.start, addr s a .write 0, sent s reg 1, sent s v 2, .stop] s))
    ∧ (s.gpxSa = some a → RunsTo (.gpxWrite reg v) s s
      (transacted (encode (.gpxWrite reg v)) 3 2 [.start, addr s a .write 0, sent s reg 1, sent s v 2, .stop] s))

/-- 42_rtc.md R183: `RTC_GET_CLOCK`, one envelope that fills all eight cache entries. -/
def Obligations.GetClockPullsAllEightEntries : Prop :=
  ∀ (a : Addr7) (s : State), Ready s → s.rtcSa = some a →
    RunsTo .rtcGetClock s s
      { transacted 0x6C000000#32 11 2 (pullEvents s a) s with
        rxb := some (got s 10)
        rtcc := #v[some (got s 3), some (got s 4), some (got s 5), some (got s 6), some (got s 7), some (got s 8),
                   some (got s 9), some (got s 10)] }

/-- 42_rtc.md R186: `RTC_STOP_CLOCK`. -/
def Obligations.StopClockSetsTheHaltBit : Prop :=
  ∀ (a : Addr7) (s : State), Ready s → s.rtcSa = some a →
    RunsTo .rtcStopClock s s
      { transacted 0x74000000#32 7 6 (haltEvents s a 0 (got s 3 ||| chMask s.cfg)) s with
        rxb := some (got s 3), seqTmp := some (got s 3) }

/-- 42_rtc.md R187: `RTC_START_CLOCK`. -/
def Obligations.StartClockClearsTheHaltBit : Prop :=
  ∀ (a : Addr7) (s : State), Ready s → s.rtcSa = some a →
    RunsTo .rtcStartClock s s
      { transacted 0x78000000#32 7 6 (haltEvents s a 0 (got s 3 &&& ~~~(chMask s.cfg))) s with
        rxb := some (got s 3), seqTmp := some (got s 3) }

/-- 42_rtc.md R184, R185: `RTC_SET_CLOCK`, five envelopes: read and halt, the burst of `RTCC[0..6]`, read and restart. -/
def Obligations.SetClockPushesSevenEntries : Prop :=
  ∀ (a : Addr7) (c : Fin 8 → Byte) (s : State), Ready s → s.rtcSa = some a →
    (∀ i : Fin 8, i.val < 7 → cacheAt s i = some (c i)) →
    RunsTo .rtcSetClock s s
      { transacted 0x70000000#32 23 22
          (haltEvents s a 0 (got s 3 ||| chMask s.cfg) ++ burstEvents s a 7 c
            ++ haltEvents s a 16 (got s 19 &&& ~~~(chMask s.cfg))) s with
        rxb := some (got s 19), seqTmp := some (got s 19) }

/-- 00_scope.md R6, 42_rtc.md R186, R187: the mask has exactly the halt bit set, so a stop sets that bit and a start clears it,
and neither touches another bit. -/
def Obligations.HaltMaskTouchesOneBit : Prop :=
  ∀ (c : Config) (t : Byte) (j : Fin 8),
    ((chMask c).getLsbD j.val = true ↔ j = c.chBit)
    ∧ (t ||| chMask c).getLsbD j.val = (t.getLsbD j.val || decide (j = c.chBit))
    ∧ (t &&& ~~~(chMask c)).getLsbD j.val = (t.getLsbD j.val && !decide (j = c.chBit))

/-- 41_eeprom.md R168: in the trace of `EE17_READ(off)` and `EE17_WRITE(off, v)` after `EE17_INIT(p)`, whatever bank was used
before, every address+mode byte has the family code, bit 16 of the offset, the physical address and the mode. -/
def Obligations.Ee17AddressBytesFollowTheOffset : Prop :=
  ∀ (p : BitVec 2) (old : Bit) (off : BitVec 17) (v : Byte) (s : State),
    Ready s → s.ee17Sa = some (s.cfg.famEE ++ old ++ p) →
    (∃ t u w w', exec (.ee17Read off) s = .next t ∧ runBlock 9 t = .next u
      ∧ (∃ a0 a1 a2 a3 d, u.trace = s.trace ++ [.start, .tx w a0, .tx (hi17 off) a1, .tx (lo17 off) a2, .restart,
          .tx w' a3, .rx d, .ma 1#1, .stop])
      ∧ w = s.cfg.famEE ++ off.extractLsb' 16 1 ++ p ++ 0#1 ∧ w' = s.cfg.famEE ++ off.extractLsb' 16 1 ++ p ++ 1#1)
    ∧ (∃ t u w, exec (.ee17Write off v) s = .next t ∧ runBlock 6 t = .next u
      ∧ (∃ a0 a1 a2 a3, u.trace = s.trace ++ [.start, .tx w a0, .tx (hi17 off) a1, .tx (lo17 off) a2, .tx v a3, .stop])
      ∧ w = s.cfg.famEE ++ off.extractLsb' 16 1 ++ p ++ 0#1)

/-- 41_eeprom.md R169, R163: the host's polling loop against a device that withholds its acknowledge for `n` polls and then
gives it: the first `n` polls return 0x01 and poll `n + 1` returns 0x00. -/
def Obligations.PollingLoopEndsAtTheFirstAcknowledge : Prop :=
  ∀ (n k : Nat) (s : State) (a : Addr7) (ms : List Move), Ready s → s.ee17Sa = some a → AcksAfter n s → k ≤ n →
    s.sched = (List.replicate (k + 1) (presentAndRun 0x4C000000#32 4)).flatten ++ ms →
    ∃ u, Host.Core.run Sys2Proof.core (5 * (k + 1)) s = .next u ∧ Ready u ∧ u.sched = ms
      ∧ u.rsp = some (if k < n then 0x01#8 else 0x00#8)

/-- 20_memory.md R74, 60_exceptions.md R218: with no device on the bus a read still completes without a fault and returns
whatever was drawn for its one receive; only the latch shows the missing acknowledge (the draws: log 5). -/
def Obligations.ReadsOfAnAbsentDeviceComplete : Prop :=
  ∀ (i : Instr) (x : State → Option Addr7) (a : Addr7) (s : State),
    i.opcode ∈ [Opcode.ee17Read, .ee12Read, .rtcRead, .gpxRead] → Ready s → addressRegister i.opcode = some x →
    x s = some a → DeviceAbsent (prog i).length s →
    ∃ t u, exec i s = .next t ∧ runBlock (prog i).length t = .next u
      ∧ Ready u ∧ u.ackl = some 1#1 ∧ u.rxb = u.rsp
      ∧ (i.opcode ∈ [Opcode.ee17Read, .ee12Read] → u.rsp = some (got s 4))
      ∧ (i.opcode ∈ [Opcode.rtcRead, .gpxRead] → u.rsp = some (got s 3))

/-! ## Whole-machine rules -/

/-- 10_state.md R43: the invariant of the registers holds at reset. -/
def Obligations.RegistersStartInvariant : Prop := RegInv State.reset

/-- 10_state.md R43: every step keeps the invariant of the registers. -/
def Obligations.EveryStepKeepsTheRegisterInvariant : Prop :=
  ∀ s t : State, RegInv s → step s = .next t → RegInv t

/-- Under the invariant of the registers no step stops the model: its own two fault reasons are out of reach (log 14). -/
def Obligations.RegisterInvariantRulesOutStops : Prop :=
  ∀ s : State, RegInv s → ∃ t, step s = .next t

/-- 40_bus_engine.md R133, R140, 10_state.md R39: the invariant of the bus holds at reset. -/
def Obligations.BusStartsInvariant : Prop := BusInv State.reset

/-- 40_bus_engine.md R133, R140, 10_state.md R39: every step keeps the invariant of the bus. Its lines are those after the last
event's waveform (log 12), and `READ_ACK` leaves them as they are, in `PHASE` `STARTED` too, where R140's words would give
`SDA_O = 1` (log 22). -/
def Obligations.EveryStepKeepsTheBusInvariant : Prop :=
  ∀ s t : State, BusInv s → step s = .next t → BusInv t

/-- 30_encoding.md R101, 60_exceptions.md R218: no acknowledge bit and no data byte changes the course of a run: of two states
that differ only in the answers to come and in the values made from earlier ones, steps go to two such states again. -/
def Obligations.AnswersNeverChangeTheCourse : Prop :=
  ∀ s s' t : State, course s = course s' → step s = .next t → ∃ t', step s' = .next t' ∧ course t = course t'

/-- 10_state.md R38: who may write each register, for every command and each of its steps, faulting ones included. That `READ_ACK`
writes neither line is log 22; the fields of the environment are logs 3, 5, 6, 8. -/
def Obligations.RegistersChangeOnlyByTheirWriters : Prop :=
  ∀ (i : Instr) (s t : State), exec i s = .next t →
    t.cfg = s.cfg ∧ t.sched = s.sched ∧ t.portIdle = s.portIdle
    ∧ (i.opcode ≠ .busOpen → t.openf = s.openf ∧ t.div = s.div)
    ∧ (i.opcode ∈ localOpcodes ∨ i.opcode = .readAck →
        t.phase = s.phase ∧ t.trace = s.trace ∧ t.answers = s.answers ∧ t.draws = s.draws)
    ∧ (i.opcode ∉ sendingOpcodes → t.ackl = s.ackl)
    ∧ (i.opcode ∉ receivingOpcodes → t.rxb = s.rxb)
    ∧ (i.opcode ∉ sendingOpcodes → i.opcode ∉ receivingOpcodes → t.draws = s.draws ∧ t.answers = s.answers)
    ∧ (i.opcode ∈ localOpcodes → t.seqCmd = s.seqCmd ∧ t.seqPc = s.seqPc ∧ t.busy = s.busy)
    ∧ (s.busy = true → t.seqCmd = s.seqCmd)
    ∧ (i.opcode ∉ [Opcode.rtcStopClock, .rtcStartClock, .rtcSetClock] → t.seqTmp = s.seqTmp)
    ∧ (i.opcode ∉ [Opcode.receiveByte, .readAck, .ee17Read, .ee12Read, .rtcRead, .gpxRead, .ee17IsWriteBusy,
        .ee12IsWriteBusy, .rtcCacheGet] → t.rsp = s.rsp)
    ∧ ((t.fault = s.fault ∧ t.faultInfo = s.faultInfo)
        ∨ (s.fault = .noFault ∧ t.fault ≠ .noFault ∧ t.faultInfo = some (encode i)))
    ∧ (i.opcode ∉ [Opcode.ee17Init, .ee17Read, .ee17Write] → t.ee17Sa = s.ee17Sa)
    ∧ (i.opcode ≠ .ee12Init → t.ee12Sa = s.ee12Sa)
    ∧ (i.opcode ≠ .rtcInit → t.rtcSa = s.rtcSa)
    ∧ (i.opcode ≠ .gpxInit → t.gpxSa = s.gpxSa)
    ∧ (i.opcode ∉ [Opcode.rtcGetClock, .rtcCachePut] → t.rtcc = s.rtcc)
    ∧ ((i.opcode ∈ localOpcodes ∧ i.opcode ≠ .busOpen) ∨ i.opcode = .readAck → t.sclO = s.sclO ∧ t.sdaO = s.sdaO)

/-- 10_state.md R43 (f): the physical address of the 17-bit EEPROM changes only by `EE17_INIT`, and the family code never. -/
def Obligations.Ee17PhysicalAddressIsKept : Prop :=
  ∀ (i : Instr) (s t : State), exec i s = .next t → i.opcode ≠ .ee17Init →
    t.ee17Sa.map (fun a => (a.extractLsb' 3 4, a.extractLsb' 0 2))
      = s.ee17Sa.map (fun a => (a.extractLsb' 3 4, a.extractLsb' 0 2))

/-- 10_state.md R43 (e): a sequencer command that completes leaves the bus released, wherever it was. -/
def Obligations.CompletedSequencerCommandsReleaseTheBus : Prop :=
  ∀ (i : Instr) (s t : State), i.opcode ∉ engineOpcodes → s.fault = .noFault → s.busy = true →
    exec i s = .next t → t.busy = false →
    t.phase = .free ∧ t.sclO = 1#1 ∧ t.sdaO = 1#1 ∧ t.seqPc = 0#6 ∧ t.fault = .noFault

/-- 10_state.md R21, R22, R37, 60_exceptions.md R211: until reset, an open bus stays open, a written `DIV` stays written, the trace
only grows at its end, and a recorded fault and its word stay. That no answer is taken back is the model's counting of draws (log
5), that the parameters never change is log 8. -/
def Obligations.OnlyResetTakesBack : Prop :=
  ∀ s t : State, step s = .next t →
    t.cfg = s.cfg
    ∧ (s.sched.head? ≠ some .reset →
        (s.openf = true → t.openf = true) ∧ s.trace <+: t.trace ∧ s.draws ≤ t.draws
        ∧ (s.fault ≠ .noFault → t.fault = s.fault ∧ t.faultInfo = s.faultInfo)
        ∧ (s.div.isSome = true → t.div.isSome = true))

/-! ## Pin level -/

/-- 40_bus_engine.md R140 to R145: with the clock line never held low, the waveform of each event runs to its end, leaves the
lines as R140 says, and samples the data line at its sampling points. -/
def Obligations.WaveformsRunToTheirLevels : Prop :=
  ∀ (e : WireEvent) (lines : List LineIn) (p : PinRun),
    lines.length = (waveform e).length → (∀ l ∈ lines, l.scl = 1#1) →
    runPins lines (waveform e) p = (⟨levelsAfter e, p.sampled ++ sampledAt (waveform e) lines⟩, [])

/-- 40_bus_engine.md R145, R146, 20_memory.md R64: a waveform has one sampling point for each bit the slave drives; eight bits
sampled most significant first are the byte; `env_ack()` and `env_data()` are the values of `sda_i` at the sampling points, so that
in a waveform run to its end an event carries the answer that those values are exactly if they are the bits the slave drives in it.
At pin level (log 23) with the clock never held, the waveform of the event just recorded takes one action a step, whether or not a
fault stands (log 24), `PORT_IDLE` is 0 before its end and 1 at its end, and there the bits sampled are those the event carries. -/
def Obligations.SampledBitsAreTheByte : Prop :=
  (∀ d : Byte, byteOfBits (msbFirst d) = d)
  ∧ (∀ e : WireEvent, ((waveform e).filter (fun a => a = .sample)).length = (slaveBits e).length)
  ∧ (∀ (b : Byte) (j : Fin 8), (msbFirst b)[j.val]? = some (b.extractLsb' (7 - j.val) 1))
  ∧ (∀ (e : WireEvent) (lines : List LineIn) (l : Levels) (q : PinRun), runPins lines (waveform e) ⟨l, []⟩ = (q, []) →
      (q.sampled = slaveBits e ↔ carries e (answerOfSamples q.sampled)))
  ∧ ∀ (e : WireEvent) (p : PinState) (n : Nat),
      p.wave = waveform e → p.sampled = [] → p.block.trace.getLast? = some e → p.block.portIdle = false →
      n ≤ (waveform e).length →
      ∃ q, runPinMoves (List.replicate n (.port 1#1)) p = .next q
        ∧ q.block = { p.block with portIdle := decide (n = (waveform e).length) } ∧ q.wave = (waveform e).drop n
        ∧ (n = (waveform e).length → q.levels = levelsAfter e ∧ q.sampled = slaveBits e ∧ carries e (answerOfSamples q.sampled))

/-- 40_bus_engine.md R146, 60_exceptions.md R219: a slave that holds the clock low stops a waveform at its first `rise`, with the
clock released and nothing sampled. At pin level (log 23), while it holds the clock and a `rise` is still to come, `PORT_IDLE` stays
0 and the next primitive never executes, however often the block and the port try: the block keeps every register. -/
def Obligations.HeldClockStopsTheWaveform : Prop :=
  (∀ (e : WireEvent) (lines : List LineIn) (p : PinRun), e ≠ .start → (∀ l ∈ lines, l.scl = 0#1) → 4 ≤ lines.length →
    runPins lines (waveform e) p = (⟨settle (beforeRise (waveform e)) p.levels, p.sampled⟩, fromRise (waveform e))
    ∧ (settle (beforeRise (waveform e)) p.levels).scl = 1#1 ∧ (fromRise (waveform e)).head? = some .rise)
  ∧ ∀ (ms : List PinMove) (p : PinState) (i : Instr) (u : MicroOp) (x : Primitive),
    (∀ m ∈ ms, m = .block ∨ m = .port 0#1) → .rise ∈ p.wave → p.block.portIdle = false →
    InProgress i u p.block → latched p.block = some i → p.block.openf = true → legalPhase u p.block.phase = true →
    readOperands u p.block = some x →
    ∃ q, runPinMoves ms p = .next q ∧ q.block = p.block ∧ .rise ∈ q.wave

/-- 40_bus_engine.md R140 to R144: bytes and acknowledges change the data line only while the clock is low; START, RESTART and
STOP change it while the clock is high. -/
def Obligations.DataChangesOnlyUnderLowClock : Prop :=
  (∀ (sda : Bit) (b : Byte) (a : Bit), dataStable (waveform (.tx b a)) ⟨0#1, sda⟩ = true)
  ∧ (∀ (sda : Bit) (d : Byte), dataStable (waveform (.rx d)) ⟨0#1, sda⟩ = true)
  ∧ (∀ sda k : Bit, dataStable (waveform (.ma k)) ⟨0#1, sda⟩ = true)
  ∧ dataStable (waveform .start) ⟨1#1, 1#1⟩ = false
  ∧ (∀ sda : Bit, dataStable (waveform .restart) ⟨0#1, sda⟩ = false)
  ∧ (∀ sda : Bit, dataStable (waveform .stop) ⟨0#1, sda⟩ = false)
end

