-- ==== Sys2Proof/Laws/Encoding.lean ====
section
/-! SUPPORT. Bit-level laws of the encoding: where the bits of an operand field lie (30_encoding.md R91), and that an opcode and
its must-be-zero bits (R92, R96) meet no operand bit. -/

namespace Sys2Proof.Laws

/-- A bit of a field at its place. -/
theorem getLsbD_fieldAt {n : Nat} (v : BitVec n) (lo k : Nat) :
    (fieldAt v lo).getLsbD k = (decide (lo ≤ k ∧ k < 32) && v.getLsbD (k - lo)) := by
  simp only [fieldAt, BitVec.getLsbD_shiftLeft, BitVec.getLsbD_setWidth]
  by_cases h : lo ≤ k <;> by_cases h2 : k < 32
  · simp [h, h2, show k - lo < 32 by omega, show ¬ k < lo by omega]
  · simp [h2]
  · simp [h, show k < lo by omega]
  · simp [h2]

/-- A field is 0 under a mask that is 0 throughout the field. -/
theorem fieldAt_and_eq_zero {n : Nat} (v : BitVec n) (lo : Nat) (m : Word)
    (h : ∀ k < 32, lo ≤ k → k < lo + n → m.getLsbD k = false) : fieldAt v lo &&& m = 0#32 := by
  ext k hk
  simp only [← BitVec.getLsbD_eq_getElem, BitVec.getLsbD_and, getLsbD_fieldAt, BitVec.getLsbD_zero]
  by_cases h1 : lo ≤ k
  · by_cases h2 : k < lo + n
    · simp [h k hk h1 h2]
    · simp [BitVec.getLsbD_of_ge v (k - lo) (by omega)]
  · simp [h1]

/-- Masking distributes over or. -/
theorem or_and_mask (x y m : Word) : (x ||| y) &&& m = x &&& m ||| y &&& m := by
  ext k hk
  simp [Bool.and_or_distrib_right]

/-- Taking a field distributes over or. -/
theorem extractLsb'_or' (x y : Word) (lo n : Nat) :
    (x ||| y).extractLsb' lo n = x.extractLsb' lo n ||| y.extractLsb' lo n := by
  ext k hk
  simp

/-- A field read at its own place is the field. -/
theorem extractLsb'_fieldAt_self {n : Nat} (v : BitVec n) (lo : Nat) (h : lo + n ≤ 32) :
    (fieldAt v lo).extractLsb' lo n = v := by
  ext k hk
  simp only [← BitVec.getLsbD_eq_getElem, BitVec.getLsbD_extractLsb', getLsbD_fieldAt]
  simp [hk, show lo + k < 32 by omega]

/-- A field read at another place is 0. -/
theorem extractLsb'_fieldAt_disjoint {n : Nat} (v : BitVec n) (lo at' m : Nat) (h : at' + m ≤ lo ∨ lo + n ≤ at') :
    (fieldAt v lo).extractLsb' at' m = 0#m := by
  ext k hk
  simp only [← BitVec.getLsbD_eq_getElem, BitVec.getLsbD_extractLsb', getLsbD_fieldAt, BitVec.getLsbD_zero]
  by_cases h1 : lo ≤ at' + k
  · simp [BitVec.getLsbD_of_ge v (at' + k - lo) (by omega)]
  · simp [h1]

/-- The column `match` of R96 is the opcode as a field at bit 26. -/
theorem matchBits_eq_fieldAt (o : Opcode) : o.matchBits = fieldAt o.code 26 := rfl

/-- The opcode's own bits are all under its mask (30_encoding.md R92). -/
theorem matchBits_and_mask (o : Opcode) : o.matchBits &&& o.mask = o.matchBits := by
  cases o <;> decide

/-- A row is found under its own opcode. -/
theorem ofCode_code (o : Opcode) : Opcode.ofCode o.code = some o := by
  cases o <;> decide

/-- Two rows never share an opcode (30_encoding.md R92). -/
theorem code_ofCode (c : BitVec 6) (o : Opcode) (h : Opcode.ofCode c = some o) : o.code = c := by
  have key : ∀ c : BitVec 6, ∀ o ∈ Opcode.ofCode c, o.code = c := by decide
  exact key c o h

end Sys2Proof.Laws
end

