-- ==== Sys2Proof/Laws/State.lean ====
section
/-! SUPPORT. What each shared update does to each field of State: one lemma per field, so that no proof unfolds the update. -/

namespace Sys2Proof.Laws

open Sys2Proof.Machine

/-! `drawn`: only the answers move. -/

@[simp] theorem drawn_cfg (n : Nat) (s : State) : (drawn n s).cfg = s.cfg := rfl
@[simp] theorem drawn_openf (n : Nat) (s : State) : (drawn n s).openf = s.openf := rfl
@[simp] theorem drawn_div (n : Nat) (s : State) : (drawn n s).div = s.div := rfl
@[simp] theorem drawn_phase (n : Nat) (s : State) : (drawn n s).phase = s.phase := rfl
@[simp] theorem drawn_ackl (n : Nat) (s : State) : (drawn n s).ackl = s.ackl := rfl
@[simp] theorem drawn_rxb (n : Nat) (s : State) : (drawn n s).rxb = s.rxb := rfl
@[simp] theorem drawn_busy (n : Nat) (s : State) : (drawn n s).busy = s.busy := rfl
@[simp] theorem drawn_seqCmd (n : Nat) (s : State) : (drawn n s).seqCmd = s.seqCmd := rfl
@[simp] theorem drawn_seqPc (n : Nat) (s : State) : (drawn n s).seqPc = s.seqPc := rfl
@[simp] theorem drawn_seqTmp (n : Nat) (s : State) : (drawn n s).seqTmp = s.seqTmp := rfl
@[simp] theorem drawn_rsp (n : Nat) (s : State) : (drawn n s).rsp = s.rsp := rfl
@[simp] theorem drawn_fault (n : Nat) (s : State) : (drawn n s).fault = s.fault := rfl
@[simp] theorem drawn_faultInfo (n : Nat) (s : State) : (drawn n s).faultInfo = s.faultInfo := rfl
@[simp] theorem drawn_ee17Sa (n : Nat) (s : State) : (drawn n s).ee17Sa = s.ee17Sa := rfl
@[simp] theorem drawn_ee12Sa (n : Nat) (s : State) : (drawn n s).ee12Sa = s.ee12Sa := rfl
@[simp] theorem drawn_rtcSa (n : Nat) (s : State) : (drawn n s).rtcSa = s.rtcSa := rfl
@[simp] theorem drawn_gpxSa (n : Nat) (s : State) : (drawn n s).gpxSa = s.gpxSa := rfl
@[simp] theorem drawn_rtcc (n : Nat) (s : State) : (drawn n s).rtcc = s.rtcc := rfl
@[simp] theorem drawn_trace (n : Nat) (s : State) : (drawn n s).trace = s.trace := rfl
@[simp] theorem drawn_sclO (n : Nat) (s : State) : (drawn n s).sclO = s.sclO := rfl
@[simp] theorem drawn_sdaO (n : Nat) (s : State) : (drawn n s).sdaO = s.sdaO := rfl
@[simp] theorem drawn_portIdle (n : Nat) (s : State) : (drawn n s).portIdle = s.portIdle := rfl
@[simp] theorem drawn_sched (n : Nat) (s : State) : (drawn n s).sched = s.sched := rfl

@[simp] theorem drawn_answers (n : Nat) (s : State) : (drawn n s).answers = s.answers.drop n := rfl
@[simp] theorem drawn_draws (n : Nat) (s : State) : (drawn n s).draws = s.draws + n := rfl

/-! `emit`: the trace and the lines. -/

@[simp] theorem emit_cfg (e : WireEvent) (s : State) : (emit e s).cfg = s.cfg := rfl
@[simp] theorem emit_openf (e : WireEvent) (s : State) : (emit e s).openf = s.openf := rfl
@[simp] theorem emit_div (e : WireEvent) (s : State) : (emit e s).div = s.div := rfl
@[simp] theorem emit_phase (e : WireEvent) (s : State) : (emit e s).phase = s.phase := rfl
@[simp] theorem emit_ackl (e : WireEvent) (s : State) : (emit e s).ackl = s.ackl := rfl
@[simp] theorem emit_rxb (e : WireEvent) (s : State) : (emit e s).rxb = s.rxb := rfl
@[simp] theorem emit_busy (e : WireEvent) (s : State) : (emit e s).busy = s.busy := rfl
@[simp] theorem emit_seqCmd (e : WireEvent) (s : State) : (emit e s).seqCmd = s.seqCmd := rfl
@[simp] theorem emit_seqPc (e : WireEvent) (s : State) : (emit e s).seqPc = s.seqPc := rfl
@[simp] theorem emit_seqTmp (e : WireEvent) (s : State) : (emit e s).seqTmp = s.seqTmp := rfl
@[simp] theorem emit_rsp (e : WireEvent) (s : State) : (emit e s).rsp = s.rsp := rfl
@[simp] theorem emit_fault (e : WireEvent) (s : State) : (emit e s).fault = s.fault := rfl
@[simp] theorem emit_faultInfo (e : WireEvent) (s : State) : (emit e s).faultInfo = s.faultInfo := rfl
@[simp] theorem emit_ee17Sa (e : WireEvent) (s : State) : (emit e s).ee17Sa = s.ee17Sa := rfl
@[simp] theorem emit_ee12Sa (e : WireEvent) (s : State) : (emit e s).ee12Sa = s.ee12Sa := rfl
@[simp] theorem emit_rtcSa (e : WireEvent) (s : State) : (emit e s).rtcSa = s.rtcSa := rfl
@[simp] theorem emit_gpxSa (e : WireEvent) (s : State) : (emit e s).gpxSa = s.gpxSa := rfl
@[simp] theorem emit_rtcc (e : WireEvent) (s : State) : (emit e s).rtcc = s.rtcc := rfl
@[simp] theorem emit_portIdle (e : WireEvent) (s : State) : (emit e s).portIdle = s.portIdle := rfl
@[simp] theorem emit_answers (e : WireEvent) (s : State) : (emit e s).answers = s.answers := rfl
@[simp] theorem emit_draws (e : WireEvent) (s : State) : (emit e s).draws = s.draws := rfl
@[simp] theorem emit_sched (e : WireEvent) (s : State) : (emit e s).sched = s.sched := rfl

@[simp] theorem emit_trace (e : WireEvent) (s : State) : (emit e s).trace = s.trace ++ [e] := rfl

/-! `cachePut`: one cache entry. -/

@[simp] theorem cachePut_cfg (i : Fin 8) (v : Byte) (s : State) : (cachePut i v s).cfg = s.cfg := rfl
@[simp] theorem cachePut_openf (i : Fin 8) (v : Byte) (s : State) : (cachePut i v s).openf = s.openf := rfl
@[simp] theorem cachePut_div (i : Fin 8) (v : Byte) (s : State) : (cachePut i v s).div = s.div := rfl
@[simp] theorem cachePut_phase (i : Fin 8) (v : Byte) (s : State) : (cachePut i v s).phase = s.phase := rfl
@[simp] theorem cachePut_ackl (i : Fin 8) (v : Byte) (s : State) : (cachePut i v s).ackl = s.ackl := rfl
@[simp] theorem cachePut_rxb (i : Fin 8) (v : Byte) (s : State) : (cachePut i v s).rxb = s.rxb := rfl
@[simp] theorem cachePut_busy (i : Fin 8) (v : Byte) (s : State) : (cachePut i v s).busy = s.busy := rfl
@[simp] theorem cachePut_seqCmd (i : Fin 8) (v : Byte) (s : State) : (cachePut i v s).seqCmd = s.seqCmd := rfl
@[simp] theorem cachePut_seqPc (i : Fin 8) (v : Byte) (s : State) : (cachePut i v s).seqPc = s.seqPc := rfl
@[simp] theorem cachePut_seqTmp (i : Fin 8) (v : Byte) (s : State) : (cachePut i v s).seqTmp = s.seqTmp := rfl
@[simp] theorem cachePut_rsp (i : Fin 8) (v : Byte) (s : State) : (cachePut i v s).rsp = s.rsp := rfl
@[simp] theorem cachePut_fault (i : Fin 8) (v : Byte) (s : State) : (cachePut i v s).fault = s.fault := rfl
@[simp] theorem cachePut_faultInfo (i : Fin 8) (v : Byte) (s : State) : (cachePut i v s).faultInfo = s.faultInfo := rfl
@[simp] theorem cachePut_ee17Sa (i : Fin 8) (v : Byte) (s : State) : (cachePut i v s).ee17Sa = s.ee17Sa := rfl
@[simp] theorem cachePut_ee12Sa (i : Fin 8) (v : Byte) (s : State) : (cachePut i v s).ee12Sa = s.ee12Sa := rfl
@[simp] theorem cachePut_rtcSa (i : Fin 8) (v : Byte) (s : State) : (cachePut i v s).rtcSa = s.rtcSa := rfl
@[simp] theorem cachePut_gpxSa (i : Fin 8) (v : Byte) (s : State) : (cachePut i v s).gpxSa = s.gpxSa := rfl
@[simp] theorem cachePut_trace (i : Fin 8) (v : Byte) (s : State) : (cachePut i v s).trace = s.trace := rfl
@[simp] theorem cachePut_sclO (i : Fin 8) (v : Byte) (s : State) : (cachePut i v s).sclO = s.sclO := rfl
@[simp] theorem cachePut_sdaO (i : Fin 8) (v : Byte) (s : State) : (cachePut i v s).sdaO = s.sdaO := rfl
@[simp] theorem cachePut_portIdle (i : Fin 8) (v : Byte) (s : State) : (cachePut i v s).portIdle = s.portIdle := rfl
@[simp] theorem cachePut_answers (i : Fin 8) (v : Byte) (s : State) : (cachePut i v s).answers = s.answers := rfl
@[simp] theorem cachePut_draws (i : Fin 8) (v : Byte) (s : State) : (cachePut i v s).draws = s.draws := rfl
@[simp] theorem cachePut_sched (i : Fin 8) (v : Byte) (s : State) : (cachePut i v s).sched = s.sched := rfl

@[simp] theorem cacheAt_cachePut_self (i : Fin 8) (v : Byte) (s : State) : cacheAt (cachePut i v s) i = some v := by
  simp [cacheAt, cachePut]

theorem cacheAt_cachePut_other (i j : Fin 8) (v : Byte) (s : State) (h : j ≠ i) :
    cacheAt (cachePut i v s) j = cacheAt s j := by
  have : i.val ≠ j.val := fun e => h (Fin.ext e.symm)
  simp [cacheAt, cachePut, this]

/-- Writing all eight entries leaves nothing of the old cache. -/
theorem cache_filled (v : Vector (Option Byte) 8) (a b c d e f g h : Option Byte) :
    (((((((v.set 0 a).set 1 b).set 2 c).set 3 d).set 4 e).set 5 f).set 6 g).set 7 h = #v[a, b, c, d, e, f, g, h] := by
  rcases v with ⟨⟨l⟩, hl⟩
  match l, hl with
  | [_, _, _, _, _, _, _, _], _ => rfl

/-! `raise`: the fault registers. -/

@[simp] theorem raise_cfg (c : FaultCode) (w : Word) (s : State) : (raise c w s).cfg = s.cfg := by
  unfold raise; split <;> rfl
@[simp] theorem raise_openf (c : FaultCode) (w : Word) (s : State) : (raise c w s).openf = s.openf := by
  unfold raise; split <;> rfl
@[simp] theorem raise_div (c : FaultCode) (w : Word) (s : State) : (raise c w s).div = s.div := by
  unfold raise; split <;> rfl
@[simp] theorem raise_phase (c : FaultCode) (w : Word) (s : State) : (raise c w s).phase = s.phase := by
  unfold raise; split <;> rfl
@[simp] theorem raise_ackl (c : FaultCode) (w : Word) (s : State) : (raise c w s).ackl = s.ackl := by
  unfold raise; split <;> rfl
@[simp] theorem raise_rxb (c : FaultCode) (w : Word) (s : State) : (raise c w s).rxb = s.rxb := by
  unfold raise; split <;> rfl
@[simp] theorem raise_busy (c : FaultCode) (w : Word) (s : State) : (raise c w s).busy = s.busy := by
  unfold raise; split <;> rfl
@[simp] theorem raise_seqCmd (c : FaultCode) (w : Word) (s : State) : (raise c w s).seqCmd = s.seqCmd := by
  unfold raise; split <;> rfl
@[simp] theorem raise_seqPc (c : FaultCode) (w : Word) (s : State) : (raise c w s).seqPc = s.seqPc := by
  unfold raise; split <;> rfl
@[simp] theorem raise_seqTmp (c : FaultCode) (w : Word) (s : State) : (raise c w s).seqTmp = s.seqTmp := by
  unfold raise; split <;> rfl
@[simp] theorem raise_rsp (c : FaultCode) (w : Word) (s : State) : (raise c w s).rsp = s.rsp := by
  unfold raise; split <;> rfl
@[simp] theorem raise_ee17Sa (c : FaultCode) (w : Word) (s : State) : (raise c w s).ee17Sa = s.ee17Sa := by
  unfold raise; split <;> rfl
@[simp] theorem raise_ee12Sa (c : FaultCode) (w : Word) (s : State) : (raise c w s).ee12Sa = s.ee12Sa := by
  unfold raise; split <;> rfl
@[simp] theorem raise_rtcSa (c : FaultCode) (w : Word) (s : State) : (raise c w s).rtcSa = s.rtcSa := by
  unfold raise; split <;> rfl
@[simp] theorem raise_gpxSa (c : FaultCode) (w : Word) (s : State) : (raise c w s).gpxSa = s.gpxSa := by
  unfold raise; split <;> rfl
@[simp] theorem raise_rtcc (c : FaultCode) (w : Word) (s : State) : (raise c w s).rtcc = s.rtcc := by
  unfold raise; split <;> rfl
@[simp] theorem raise_trace (c : FaultCode) (w : Word) (s : State) : (raise c w s).trace = s.trace := by
  unfold raise; split <;> rfl
@[simp] theorem raise_sclO (c : FaultCode) (w : Word) (s : State) : (raise c w s).sclO = s.sclO := by
  unfold raise; split <;> rfl
@[simp] theorem raise_sdaO (c : FaultCode) (w : Word) (s : State) : (raise c w s).sdaO = s.sdaO := by
  unfold raise; split <;> rfl
@[simp] theorem raise_portIdle (c : FaultCode) (w : Word) (s : State) : (raise c w s).portIdle = s.portIdle := by
  unfold raise; split <;> rfl
@[simp] theorem raise_answers (c : FaultCode) (w : Word) (s : State) : (raise c w s).answers = s.answers := by
  unfold raise; split <;> rfl
@[simp] theorem raise_draws (c : FaultCode) (w : Word) (s : State) : (raise c w s).draws = s.draws := by
  unfold raise; split <;> rfl
@[simp] theorem raise_sched (c : FaultCode) (w : Word) (s : State) : (raise c w s).sched = s.sched := by
  unfold raise; split <;> rfl

/-- The first fault is recorded. -/
theorem raise_first (c : FaultCode) (w : Word) (s : State) (h : s.fault = .noFault) :
    raise c w s = { s with fault := c, faultInfo := some w } := by
  simp [raise, h]

/-- A later fault is not. -/
theorem raise_later (c : FaultCode) (w : Word) (s : State) (h : s.fault ≠ .noFault) : raise c w s = s := by
  simp [raise, h]

/-! `advance`: the sequencer's place. -/

@[simp] theorem advance_cfg (len : Nat) (s : State) : (advance len s).cfg = s.cfg := by
  unfold advance; split <;> rfl
@[simp] theorem advance_openf (len : Nat) (s : State) : (advance len s).openf = s.openf := by
  unfold advance; split <;> rfl
@[simp] theorem advance_div (len : Nat) (s : State) : (advance len s).div = s.div := by
  unfold advance; split <;> rfl
@[simp] theorem advance_phase (len : Nat) (s : State) : (advance len s).phase = s.phase := by
  unfold advance; split <;> rfl
@[simp] theorem advance_ackl (len : Nat) (s : State) : (advance len s).ackl = s.ackl := by
  unfold advance; split <;> rfl
@[simp] theorem advance_rxb (len : Nat) (s : State) : (advance len s).rxb = s.rxb := by
  unfold advance; split <;> rfl
@[simp] theorem advance_seqCmd (len : Nat) (s : State) : (advance len s).seqCmd = s.seqCmd := by
  unfold advance; split <;> rfl
@[simp] theorem advance_seqTmp (len : Nat) (s : State) : (advance len s).seqTmp = s.seqTmp := by
  unfold advance; split <;> rfl
@[simp] theorem advance_rsp (len : Nat) (s : State) : (advance len s).rsp = s.rsp := by
  unfold advance; split <;> rfl
@[simp] theorem advance_fault (len : Nat) (s : State) : (advance len s).fault = s.fault := by
  unfold advance; split <;> rfl
@[simp] theorem advance_faultInfo (len : Nat) (s : State) : (advance len s).faultInfo = s.faultInfo := by
  unfold advance; split <;> rfl
@[simp] theorem advance_ee17Sa (len : Nat) (s : State) : (advance len s).ee17Sa = s.ee17Sa := by
  unfold advance; split <;> rfl
@[simp] theorem advance_ee12Sa (len : Nat) (s : State) : (advance len s).ee12Sa = s.ee12Sa := by
  unfold advance; split <;> rfl
@[simp] theorem advance_rtcSa (len : Nat) (s : State) : (advance len s).rtcSa = s.rtcSa := by
  unfold advance; split <;> rfl
@[simp] theorem advance_gpxSa (len : Nat) (s : State) : (advance len s).gpxSa = s.gpxSa := by
  unfold advance; split <;> rfl
@[simp] theorem advance_rtcc (len : Nat) (s : State) : (advance len s).rtcc = s.rtcc := by
  unfold advance; split <;> rfl
@[simp] theorem advance_trace (len : Nat) (s : State) : (advance len s).trace = s.trace := by
  unfold advance; split <;> rfl
@[simp] theorem advance_sclO (len : Nat) (s : State) : (advance len s).sclO = s.sclO := by
  unfold advance; split <;> rfl
@[simp] theorem advance_sdaO (len : Nat) (s : State) : (advance len s).sdaO = s.sdaO := by
  unfold advance; split <;> rfl
@[simp] theorem advance_portIdle (len : Nat) (s : State) : (advance len s).portIdle = s.portIdle := by
  unfold advance; split <;> rfl
@[simp] theorem advance_answers (len : Nat) (s : State) : (advance len s).answers = s.answers := by
  unfold advance; split <;> rfl
@[simp] theorem advance_draws (len : Nat) (s : State) : (advance len s).draws = s.draws := by
  unfold advance; split <;> rfl
@[simp] theorem advance_sched (len : Nat) (s : State) : (advance len s).sched = s.sched := by
  unfold advance; split <;> rfl

/-! `resetBlock`: what is not the block's. -/

@[simp] theorem resetBlock_cfg (s : State) : (resetBlock s).cfg = s.cfg := rfl
@[simp] theorem resetBlock_portIdle (s : State) : (resetBlock s).portIdle = s.portIdle := rfl
@[simp] theorem resetBlock_answers (s : State) : (resetBlock s).answers = s.answers := rfl
@[simp] theorem resetBlock_draws (s : State) : (resetBlock s).draws = s.draws := rfl
@[simp] theorem resetBlock_sched (s : State) : (resetBlock s).sched = s.sched := rfl

end Sys2Proof.Laws
end

