-- ==== Sys2Proof/Laws/Ops.lean ====
section
/-! SUPPORT. What the shared operations do: drawing, emitting, the micro-operation, the micro-step, acceptance. One lemma says
once everything an operation can do; proofs cite it and do not unfold the operation. -/

namespace Sys2Proof.Laws

open Sys2Proof.Machine

/-- Drawing moves the answers on. -/
@[simp] theorem answerAt_drawn (n k : Nat) (s : State) : answerAt (drawn n s) k = answerAt s (n + k) := by
  simp [answerAt, Nat.add_assoc]

/-- Drawing twice. -/
@[simp] theorem drawn_drawn (m n : Nat) (s : State) : drawn m (drawn n s) = drawn (n + m) s := by
  simp [drawn, List.drop_drop, Nat.add_assoc]

/-- The answers do not depend on anything but the list and the number of draws. -/
theorem answerAt_congr {s t : State} (ha : s.answers = t.answers) (hd : s.draws = t.draws) (k : Nat) :
    answerAt s k = answerAt t k := by
  simp [answerAt, ha, hd]

/-- A waveform run to its end leaves the levels of its event, wherever it started (40_bus_engine.md R140). -/
theorem settle_waveform (e : WireEvent) (l : Levels) : settle (waveform e) l = levelsAfter e := by
  cases e <;> rfl

/-- `emit` as one update. -/
theorem emit_eq (e : WireEvent) (s : State) :
    emit e s = { s with trace := s.trace ++ [e], sclO := (levelsAfter e).scl, sdaO := (levelsAfter e).sda } := by
  simp [emit, settle_waveform]

@[simp] theorem emit_sclO (e : WireEvent) (s : State) : (emit e s).sclO = (levelsAfter e).scl := by simp [emit_eq]
@[simp] theorem emit_sdaO (e : WireEvent) (s : State) : (emit e s).sdaO = (levelsAfter e).sda := by simp [emit_eq]

/-- Everything a micro-operation can do: one of the three faults, nothing while the port is not idle, or its action and the
advance. -/
theorem microOp_cases (w : Word) (len : Nat) (u : MicroOp) (s : State) :
    (s.openf = false ∧ microOp w len u s = raise .notOpen w s) ∨
    (s.openf = true ∧ legalPhase u s.phase = false ∧ microOp w len u s = raise .protocol w s) ∨
    (s.openf = true ∧ legalPhase u s.phase = true ∧ readOperands u s = none ∧ microOp w len u s = raise .unwritten w s) ∨
    (s.openf = true ∧ legalPhase u s.phase = true ∧ (∃ p, readOperands u s = some p) ∧ s.portIdle = false
      ∧ microOp w len u s = s) ∨
    (s.openf = true ∧ legalPhase u s.phase = true ∧ s.portIdle = true
      ∧ ∃ p, readOperands u s = some p ∧ microOp w len u s = advance len (perform p s)) := by
  unfold microOp
  cases ho : s.openf <;> cases hl : legalPhase u s.phase <;> cases hr : readOperands u s <;> cases hp : s.portIdle <;>
    simp

/-- A micro-operation whose checks pass while the port is idle. -/
theorem microOp_runs {w : Word} {len : Nat} {u : MicroOp} {s : State} {p : Primitive} (ho : s.openf = true)
    (hl : legalPhase u s.phase = true) (hr : readOperands u s = some p) (hp : s.portIdle = true) :
    microOp w len u s = advance len (perform p s) := by
  simp [microOp, ho, hl, hr, hp]

/-- After the last entry of the list the command is complete (30_encoding.md R100). -/
theorem advance_last {len : Nat} {s : State} (h : (s.seqPc + 1#6).toNat = len) :
    advance len s = { s with busy := false, seqPc := 0#6 } := by
  rw [advance, if_pos h]

/-- After any other entry the next one follows (30_encoding.md R99). -/
theorem advance_next {len : Nat} {s : State} (h : (s.seqPc + 1#6).toNat ≠ len) :
    advance len s = { s with seqPc := s.seqPc + 1#6 } := by
  rw [advance, if_neg h]

/-- Acceptance that faults. -/
theorem accept_error {w : Word} {effects : State → Except FaultCode State} {list : List MicroOp} {s : State} {c : FaultCode}
    (h : effects s = .error c) : accept w effects list s = raise c w s := by
  simp [accept, h]

/-- Acceptance of a local command. -/
theorem accept_local {w : Word} {effects : State → Except FaultCode State} {s t : State} (h : effects s = .ok t) :
    accept w effects [] s = t := by
  simp [accept, h]

/-- Acceptance of a command with micro-operations. -/
theorem accept_latches {w : Word} {effects : State → Except FaultCode State} {list : List MicroOp} {s t : State}
    (h : effects s = .ok t) (hl : list ≠ []) :
    accept w effects list s = { t with seqCmd := some w, seqPc := 0#6, busy := true } := by
  simp [accept, h, hl]

/-- Every meaning is the one shared command step with its own word, acceptance effects and list. -/
theorem exec_eq_command (i : Instr) (s : State) :
    exec i s = command (encode i) (acceptEffects i) (prog i) s := by
  cases i <;> rfl

/-- A command does nothing while a fault stands. -/
theorem exec_stopped (i : Instr) {s : State} (h : s.fault ≠ .noFault) : exec i s = .next s := by
  simp [exec_eq_command, command, h]

/-- A command presented while the block is idle is accepted. -/
theorem exec_idle (i : Instr) {s : State} (h : Idle s) :
    exec i s = .next (accept (encode i) (acceptEffects i) (prog i) s) := by
  simp [exec_eq_command, command, h.1, h.2]

/-- A command in progress executes its next micro-operation. -/
theorem exec_inProgress {i : Instr} {u : MicroOp} {s : State} (h : InProgress i u s) :
    exec i s = .next (microOp (encode i) (prog i).length u s) := by
  simp [exec_eq_command, command, microStep, h.1, h.2.1, h.2.2]

/-- Everything `exec` can answer. -/
theorem exec_cases (i : Instr) (s : State) :
    (s.fault ≠ .noFault ∧ exec i s = .next s) ∨
    (Idle s ∧ exec i s = .next (accept (encode i) (acceptEffects i) (prog i) s)) ∨
    (∃ u, InProgress i u s ∧ exec i s = .next (microOp (encode i) (prog i).length u s)) ∨
    (s.fault = .noFault ∧ s.busy = true ∧ (prog i)[s.seqPc.toNat]? = none ∧ exec i s = .fault .pcPastList) := by
  by_cases hf : s.fault = .noFault
  · cases hb : s.busy
    · exact .inr (.inl ⟨⟨hf, hb⟩, exec_idle i ⟨hf, hb⟩⟩)
    · cases hu : (prog i)[s.seqPc.toNat]? with
      | none => exact .inr (.inr (.inr ⟨hf, rfl, rfl, by simp [exec_eq_command, command, microStep, hf, hb, hu]⟩))
      | some u => exact .inr (.inr (.inl ⟨u, ⟨hf, hb, hu⟩, exec_inProgress ⟨hf, hb, hu⟩⟩))
  · exact .inl ⟨hf, exec_stopped i hf⟩

/-- No list is longer than 37 entries (10_state.md R28). -/
theorem prog_length_le (i : Instr) : (prog i).length ≤ 37 := by
  cases i <;> simp [prog, beginList, repeatBeginList, endList, sendAddressList, sendByteList, receiveByteList, sendAckList,
    readAckList, ee17ReadList, ee17WriteList, ee17BusyList, ee12ReadList, ee12WriteList, ee12BusyList, rtcReadList,
    rtcWriteList, rtcGetClockList, rtcSetClockList, rtcStopClockList, rtcStartClockList, burstWriteList, chReadList,
    chWriteList, gpxReadList, gpxWriteList]

/-- `SEQ_PC + 1` does not wrap inside a list (30_encoding.md R98). -/
theorem seqPc_succ (pc : BitVec 6) (h : pc.toNat < 63) : (pc + 1#6).toNat = pc.toNat + 1 := by
  simp [BitVec.toNat_add]; omega

end Sys2Proof.Laws
end

