-- ==== Sys2Proof/Laws/PerInstr.lean ====
section
/-! SUPPORT. The law of the encoding, one lemma per command: a command's word passes the test of its own row of the opcode map,
and no other row has its opcode (30_encoding.md R90 to R92). -/

namespace Sys2Proof.Laws

/-- A word made of an opcode and operand bits under no mask bit passes the row's test and has the row's opcode. -/
theorem row_test (o : Opcode) (v : Word) (hm : v &&& o.mask = 0#32) (hc : v.extractLsb' 26 6 = 0#6) :
    (o.matchBits ||| v) &&& o.mask = o.matchBits ∧ Opcode.ofCode ((o.matchBits ||| v).extractLsb' 26 6) = some o := by
  constructor
  · rw [or_and_mask, hm, matchBits_and_mask, BitVec.or_zero]
  · rw [extractLsb'_or', hc, matchBits_eq_fieldAt, extractLsb'_fieldAt_self _ _ (by decide), BitVec.or_zero, ofCode_code]

namespace WordShape

/-- The word of the command passes the test of its own row of R96. -/
def Statement (i : Instr) : Prop :=
  encode i &&& i.opcode.mask = i.opcode.matchBits ∧ Opcode.ofCode ((encode i).extractLsb' 26 6) = some i.opcode

/-- A command without operands. -/
theorem noField (o : Opcode) : (o.matchBits ||| 0#32) &&& o.mask = o.matchBits
    ∧ Opcode.ofCode ((o.matchBits ||| 0#32).extractLsb' 26 6) = some o :=
  row_test o 0#32 (by simp) (by simp)

/-- A command with one operand field below the opcode, under no mask bit. -/
theorem oneField (o : Opcode) {n : Nat} (v : BitVec n) (lo : Nat) (hl : lo + n ≤ 26)
    (h : ∀ k < 32, lo ≤ k → k < lo + n → o.mask.getLsbD k = false) :
    (o.matchBits ||| fieldAt v lo) &&& o.mask = o.matchBits
    ∧ Opcode.ofCode ((o.matchBits ||| fieldAt v lo).extractLsb' 26 6) = some o :=
  row_test o _ (fieldAt_and_eq_zero v lo _ h) (extractLsb'_fieldAt_disjoint v lo _ _ (.inr hl))

/-- A command with two operand fields below the opcode, under no mask bit. -/
theorem twoFields (o : Opcode) {n m : Nat} (v : BitVec n) (lo : Nat) (w : BitVec m) (lo' : Nat)
    (hl : lo + n ≤ 26) (hl' : lo' + m ≤ 26)
    (h : ∀ k < 32, lo ≤ k → k < lo + n → o.mask.getLsbD k = false)
    (h' : ∀ k < 32, lo' ≤ k → k < lo' + m → o.mask.getLsbD k = false) :
    (o.matchBits ||| (fieldAt v lo ||| fieldAt w lo')) &&& o.mask = o.matchBits
    ∧ Opcode.ofCode ((o.matchBits ||| (fieldAt v lo ||| fieldAt w lo')).extractLsb' 26 6) = some o :=
  row_test o _
    (by rw [or_and_mask, fieldAt_and_eq_zero v lo _ h, fieldAt_and_eq_zero w lo' _ h', BitVec.or_zero])
    (by rw [extractLsb'_or', extractLsb'_fieldAt_disjoint v lo _ _ (.inr hl),
          extractLsb'_fieldAt_disjoint w lo' _ _ (.inr hl'), BitVec.or_zero])

theorem busOpen (rate : Byte) : Statement (.busOpen rate) :=
  oneField .busOpen rate 0 (by decide) (by decide)

theorem busBegin : Statement .busBegin :=
  noField .busBegin

theorem busRepeatBegin : Statement .busRepeatBegin :=
  noField .busRepeatBegin

theorem busEnd : Statement .busEnd :=
  noField .busEnd

theorem sendAddress (addr : Addr7) (mode : Mode) : Statement (.sendAddress addr mode) :=
  twoFields .sendAddress mode.bit 8 addr 0 (by decide) (by decide) (by decide) (by decide)

theorem sendByte (b : Byte) : Statement (.sendByte b) :=
  oneField .sendByte b 0 (by decide) (by decide)

theorem receiveByte : Statement .receiveByte :=
  noField .receiveByte

theorem sendAck (k : Bit) : Statement (.sendAck k) :=
  oneField .sendAck k 0 (by decide) (by decide)

theorem readAck : Statement .readAck :=
  noField .readAck

theorem ee17Init (phys : BitVec 2) : Statement (.ee17Init phys) :=
  oneField .ee17Init phys 0 (by decide) (by decide)

theorem ee17Read (off : BitVec 17) : Statement (.ee17Read off) :=
  oneField .ee17Read off 8 (by decide) (by decide)

theorem ee17Write (off : BitVec 17) (data : Byte) : Statement (.ee17Write off data) :=
  twoFields .ee17Write off 8 data 0 (by decide) (by decide) (by decide) (by decide)

theorem ee17IsWriteBusy : Statement .ee17IsWriteBusy :=
  noField .ee17IsWriteBusy

theorem ee12Init (phys : BitVec 3) : Statement (.ee12Init phys) :=
  oneField .ee12Init phys 0 (by decide) (by decide)

theorem ee12Read (off : BitVec 12) : Statement (.ee12Read off) :=
  oneField .ee12Read off 8 (by decide) (by decide)

theorem ee12Write (off : BitVec 12) (data : Byte) : Statement (.ee12Write off data) :=
  twoFields .ee12Write off 8 data 0 (by decide) (by decide) (by decide) (by decide)

theorem ee12IsWriteBusy : Statement .ee12IsWriteBusy :=
  noField .ee12IsWriteBusy

theorem rtcInit (phys : BitVec 3) : Statement (.rtcInit phys) :=
  oneField .rtcInit phys 0 (by decide) (by decide)

theorem rtcRead (reg : Byte) : Statement (.rtcRead reg) :=
  oneField .rtcRead reg 0 (by decide) (by decide)

theorem rtcWrite (reg : Byte) (data : Byte) : Statement (.rtcWrite reg data) :=
  twoFields .rtcWrite reg 8 data 0 (by decide) (by decide) (by decide) (by decide)

theorem rtcGetClock : Statement .rtcGetClock :=
  noField .rtcGetClock

theorem rtcSetClock : Statement .rtcSetClock :=
  noField .rtcSetClock

theorem rtcStopClock : Statement .rtcStopClock :=
  noField .rtcStopClock

theorem rtcStartClock : Statement .rtcStartClock :=
  noField .rtcStartClock

theorem rtcCacheGet (idx : BitVec 3) : Statement (.rtcCacheGet idx) :=
  oneField .rtcCacheGet idx 0 (by decide) (by decide)

theorem rtcCachePut (idx : BitVec 3) (data : Byte) : Statement (.rtcCachePut idx data) :=
  twoFields .rtcCachePut idx 8 data 0 (by decide) (by decide) (by decide) (by decide)

theorem gpxInit (phys : BitVec 3) : Statement (.gpxInit phys) :=
  oneField .gpxInit phys 0 (by decide) (by decide)

theorem gpxRead (reg : Byte) : Statement (.gpxRead reg) :=
  oneField .gpxRead reg 0 (by decide) (by decide)

theorem gpxWrite (reg : Byte) (data : Byte) : Statement (.gpxWrite reg data) :=
  twoFields .gpxWrite reg 8 data 0 (by decide) (by decide) (by decide) (by decide)

end WordShape

end Sys2Proof.Laws
end

