-- ==== Sys2Proof/Laws/Pins.lean ====
section
/-! SUPPORT. The pin level: one lemma per action of a waveform run against the lines. -/

namespace Sys2Proof.Laws

open Sys2Proof.Machine

@[simp] theorem runPins_done (lines : List LineIn) (p : PinRun) : runPins lines [] p = (p, []) := by
  cases lines <;> rfl

@[simp] theorem runPins_noLines (acts : List PinAction) (p : PinRun) : runPins [] acts p = (p, acts) := rfl

@[simp] theorem runPins_sda (line : LineIn) (lines : List LineIn) (v : Bit) (acts : List PinAction) (p : PinRun) :
    runPins (line :: lines) (.sda v :: acts) p = runPins lines acts { p with levels := { p.levels with sda := v } } := rfl

@[simp] theorem runPins_scl (line : LineIn) (lines : List LineIn) (v : Bit) (acts : List PinAction) (p : PinRun) :
    runPins (line :: lines) (.scl v :: acts) p = runPins lines acts { p with levels := { p.levels with scl := v } } := rfl

@[simp] theorem runPins_delay (line : LineIn) (lines : List LineIn) (acts : List PinAction) (p : PinRun) :
    runPins (line :: lines) (.delay :: acts) p = runPins lines acts p := rfl

@[simp] theorem runPins_sample (line : LineIn) (lines : List LineIn) (acts : List PinAction) (p : PinRun) :
    runPins (line :: lines) (.sample :: acts) p = runPins lines acts { p with sampled := p.sampled ++ [line.sda] } := rfl

/-- A `rise` passes when the clock line reads high and holds while it reads low. -/
theorem runPins_rise (line : LineIn) (lines : List LineIn) (acts : List PinAction) (p : PinRun) :
    runPins (line :: lines) (.rise :: acts) p
      = if line.scl = 1#1 then runPins lines acts p else runPins lines (.rise :: acts) p := rfl

end Sys2Proof.Laws
end

