-- ==== Sys2Proof/Laws/Step.lean ====
section
/-! SUPPORT. What a step does: one lemma per kind of move, and the block's step for the command in progress. -/

namespace Sys2Proof.Laws

open Sys2Proof.Machine

/-- A step takes the next listed move. -/
theorem step_cons {s : State} {m : Move} {ms : List Move} (h : s.sched = m :: ms) :
    step s = takeMove m { s with sched := ms } := by
  simp [step, scheduledStep, h]

/-- With no move listed the block steps. -/
theorem step_nil {s : State} (h : s.sched = []) : step s = blockStep s := by
  simp [step, scheduledStep, h]

/-- The block takes no step while a fault stands. -/
theorem blockStep_stopped {s : State} (h : s.fault ≠ .noFault) : blockStep s = .next s := by
  simp [blockStep, h]

/-- The block takes no step while no command is in progress. -/
theorem blockStep_idle {s : State} (h : s.busy = false) : blockStep s = .next s := by
  simp [blockStep, h]

/-- The block's step is the step of the latched command. -/
theorem blockStep_latched {s : State} {i : Instr} (hf : s.fault = .noFault) (hb : s.busy = true)
    (hl : latched s = some i) : blockStep s = exec i s := by
  unfold latched at hl
  cases hc : s.seqCmd with
  | none => simp [hc] at hl
  | some w =>
    cases hd : decode w with
    | error e => simp [hc, hd, Except.toOption] at hl
    | ok j =>
      simp [hc, hd, Except.toOption] at hl
      simp [blockStep, hf, hb, hc, hd, hl]

/-- A presented command is executed. -/
theorem presentWord_command {s : State} {w : Word} {i : Instr} (h : Idle s) (hd : decode w = .ok i) :
    presentWord w s = exec i s := by
  simp [presentWord, h.1, h.2, hd]

/-- One more step of the block. -/
theorem runBlock_succ {n : Nat} {s t : State} (h : blockStep s = .next t) : runBlock (n + 1) s = runBlock n t := by
  simp [runBlock, h]

end Sys2Proof.Laws
end

