-- ==== Sys2Proof/Laws/PinLevel.lean ====
section
/-! SUPPORT. The pin level: what a step of the block does to what the port sees of it, the invariant of the pin level, and the pin
level as a refinement of the wire events (40_bus_engine.md R145, R146). -/

namespace Sys2Proof.Laws

open Sys2Proof.Machine

/-! ### What the port sees of a step of the block -/

/-- Nothing that the port sees changes. -/
structure SamePort (s t : State) : Prop where
  trace    : t.trace = s.trace
  portIdle : t.portIdle = s.portIdle
  sclO     : t.sclO = s.sclO
  sdaO     : t.sdaO = s.sdaO

/-- The step records the event `e`, with the port idle. -/
structure Records (e : WireEvent) (s t : State) : Prop where
  wasIdle : s.portIdle = true
  trace   : t.trace = s.trace ++ [e]
  lines   : (⟨t.sclO, t.sdaO⟩ : Levels) = levelsAfter e

theorem SamePort.rfl' (s : State) : SamePort s s := ⟨rfl, rfl, rfl, rfl⟩

theorem raise_samePort (c : FaultCode) (w : Word) (s : State) : SamePort s (raise c w s) := by
  unfold raise; split <;> exact ⟨rfl, rfl, rfl, rfl⟩

theorem advance_samePort (len : Nat) (s : State) : SamePort s (advance len s) := by
  unfold advance; split <;> exact ⟨rfl, rfl, rfl, rfl⟩

/-- A primitive leaves what the port sees or records one event. -/
theorem perform_port (p : Primitive) {s : State} (h : s.portIdle = true) :
    SamePort s (perform p s) ∨ ∃ e, Records e s (perform p s) := by
  cases p with
  | readAck a => exact .inl ⟨rfl, rfl, rfl, rfl⟩
  | receive d => right; cases d <;> exact ⟨_, h, rfl, by simp [perform, writeDest]⟩
  | _ => right; exact ⟨_, h, rfl, by simp [perform]⟩

/-- A micro-operation leaves what the port sees or records one event. -/
theorem microOp_port (w : Word) (len : Nat) (u : MicroOp) (s : State) :
    SamePort s (microOp w len u s) ∨ ∃ e, Records e s (microOp w len u s) := by
  obtain ⟨-, h⟩ | ⟨-, -, h⟩ | ⟨-, -, -, h⟩ | ⟨-, -, -, -, h⟩ | ⟨-, -, hp, p, -, h⟩ := microOp_cases w len u s <;> rw [h]
  · exact .inl (raise_samePort ..)
  · exact .inl (raise_samePort ..)
  · exact .inl (raise_samePort ..)
  · exact .inl ⟨rfl, rfl, rfl, rfl⟩
  · have ha := advance_samePort len (perform p s)
    obtain hs | ⟨e, he⟩ := perform_port p hp
    · exact .inl ⟨ha.trace.trans hs.trace, ha.portIdle.trans hs.portIdle, ha.sclO.trans hs.sclO, ha.sdaO.trans hs.sdaO⟩
    · exact .inr ⟨e, he.wasIdle, ha.trace.trans he.trace, by rw [ha.sclO, ha.sdaO, he.lines]⟩

/-- A step of the block leaves what the port sees or records one event. -/
theorem blockStep_port {s t : State} (h : blockStep s = .next t) : SamePort s t ∨ ∃ e, Records e s t := by
  by_cases hf : s.fault = .noFault
  · cases hb : s.busy with
    | false => rw [blockStep_idle hb] at h; cases h; exact .inl ⟨rfl, rfl, rfl, rfl⟩
    | true =>
      cases hl : latched s with
      | none =>
        unfold latched at hl
        cases hc : s.seqCmd with
        | none => simp [blockStep, hf, hb, hc] at h
        | some w => cases hd : decode w <;> simp_all [blockStep, Except.toOption]
      | some i =>
        rw [blockStep_latched hf hb hl] at h
        obtain ⟨hn, -⟩ | ⟨hi, -⟩ | ⟨u, -, he⟩ | ⟨-, -, -, he⟩ := exec_cases i s
        · exact absurd hf hn
        · simp [hi.2] at hb
        · rw [he] at h; cases h; exact microOp_port ..
        · rw [he] at h; cases h
  · rw [blockStep_stopped hf] at h; cases h; exact .inl ⟨rfl, rfl, rfl, rfl⟩

/-- An accepted `OPEN`. -/
def OpensBus (w : Word) (s t : State) : Prop :=
  (∃ r, decode w = .ok (.busOpen r)) ∧ s.busy = false ∧ t.fault = .noFault

/-- A driver command that only needs its address register changes nothing at acceptance. -/
theorem needAddress_ok {x : State → Option Addr7} {s t : State} (h : needAddress x s = .ok t) : t = s := by
  unfold needAddress at h; split at h <;> cases h; rfl

/-- What the acceptance effects of any command leave unchanged, `OPEN` and what it writes apart. -/
theorem acceptEffects_port {i : Instr} {s t : State} (h : acceptEffects i s = .ok t) :
    t.fault = s.fault ∧ (((∀ r, i ≠ .busOpen r) ∧ SamePort s t) ∨
      ((∃ r, i = .busOpen r) ∧ s.phase = .free ∧ t.trace = s.trace ∧ t.portIdle = s.portIdle ∧ t.sclO = 1#1 ∧ t.sdaO = 1#1)) := by
  cases i with
  | busOpen r =>
    simp only [acceptEffects, openEffects] at h
    split at h
    · cases h
    · rename_i hp
      split at h <;> cases h
      exact ⟨rfl, .inr ⟨⟨r, rfl⟩, by simpa using hp, rfl, rfl, rfl, rfl⟩⟩
  | busBegin | busRepeatBegin | busEnd | sendAddress | sendByte | receiveByte | sendAck | readAck =>
    cases h; exact ⟨rfl, .inl ⟨nofun, rfl, rfl, rfl, rfl⟩⟩
  | ee17Init | ee12Init | rtcInit | gpxInit | rtcCachePut => cases h; exact ⟨rfl, .inl ⟨nofun, rfl, rfl, rfl, rfl⟩⟩
  | ee17Read off =>
    simp only [acceptEffects, ee17SelectBank] at h
    split at h <;> cases h; exact ⟨rfl, .inl ⟨nofun, rfl, rfl, rfl, rfl⟩⟩
  | ee17Write off _ =>
    simp only [acceptEffects, ee17SelectBank] at h
    split at h <;> cases h; exact ⟨rfl, .inl ⟨nofun, rfl, rfl, rfl, rfl⟩⟩
  | rtcSetClock =>
    simp only [acceptEffects, rtcSetClockEffects] at h
    split at h
    · cases h
    · split at h <;> cases h; exact ⟨rfl, .inl ⟨nofun, rfl, rfl, rfl, rfl⟩⟩
  | rtcCacheGet idx =>
    simp only [acceptEffects, cacheGetEffects] at h
    split at h <;> cases h; exact ⟨rfl, .inl ⟨nofun, rfl, rfl, rfl, rfl⟩⟩
  | ee17IsWriteBusy | ee12Read | ee12Write | ee12IsWriteBusy | rtcRead | rtcWrite | rtcGetClock | rtcStopClock | rtcStartClock
  | gpxRead | gpxWrite => rw [needAddress_ok h]; exact ⟨rfl, .inl ⟨nofun, rfl, rfl, rfl, rfl⟩⟩

/-- A fault of the acceptance effects is a fault. -/
theorem acceptEffects_error {i : Instr} {s : State} {c : FaultCode} (h : acceptEffects i s = .error c) : c ≠ .noFault := by
  rintro rfl
  cases i <;>
    simp only [acceptEffects, openEffects, noEffects, needAddress, ee17InitEffects, ee17SelectBank, ee12InitEffects,
      rtcInitEffects, rtcSetClockEffects, cacheGetEffects, cachePutEffects, gpxInitEffects] at h <;>
    (repeat' split at h) <;> cases h

/-- A presentation leaves what the port sees, unless it is an accepted `OPEN`, which releases the lines. -/
theorem presentWord_port {w : Word} {s t : State} (h : presentWord w s = .next t) :
    (¬ OpensBus w s t ∧ SamePort s t) ∨
    (OpensBus w s t ∧ s.phase = .free ∧ t.trace = s.trace ∧ t.portIdle = s.portIdle ∧ t.sclO = 1#1 ∧ t.sdaO = 1#1) := by
  have raised {c : FaultCode} (hc : c ≠ .noFault) (hf : s.fault = .noFault) (ht : t = raise c w s) :
      ¬ OpensBus w s t ∧ SamePort s t := by
    subst ht
    exact ⟨fun ho => hc (by simpa [raise, hf] using ho.2.2), raise_samePort ..⟩
  by_cases hf : s.fault = .noFault
  · cases hb : s.busy with
    | true => simp [presentWord, hf, hb] at h; exact .inl (raised (by simp) hf h.symm)
    | false =>
      cases hd : decode w with
      | error e => simp [presentWord, hf, hb, hd] at h; exact .inl (raised (by simp) hf h.symm)
      | ok i =>
        rw [presentWord_command ⟨hf, hb⟩ hd, exec_idle i ⟨hf, hb⟩] at h
        have hlat (s1 : State) : SamePort s1 (accept (encode i) (fun _ => .ok s1) (prog i) s) ∧
            (accept (encode i) (fun _ => .ok s1) (prog i) s).fault = s1.fault := by
          unfold accept; dsimp only; split <;> exact ⟨⟨rfl, rfl, rfl, rfl⟩, rfl⟩
        cases he : acceptEffects i s with
        | error c =>
          rw [accept_error he] at h; cases h
          refine .inl ⟨fun ho => acceptEffects_error he ?_, raise_samePort ..⟩
          simpa [raise, hf] using ho.2.2
        | ok s1 =>
          have hs : accept (encode i) (acceptEffects i) (prog i) s = accept (encode i) (fun _ => .ok s1) (prog i) s := by
            unfold accept; rw [he]
          rw [hs] at h; cases h
          obtain ⟨hl, hlf⟩ := hlat s1
          obtain ⟨hf1, ⟨hi, hp⟩ | ⟨⟨r, rfl⟩, hph, hp⟩⟩ := acceptEffects_port he
          · refine .inl ⟨?_, hl.trace.trans hp.trace, hl.portIdle.trans hp.portIdle, hl.sclO.trans hp.sclO,
              hl.sdaO.trans hp.sdaO⟩
            rintro ⟨⟨r, hr⟩, -⟩
            rw [hd] at hr; cases hr; exact hi r rfl
          · exact .inr ⟨⟨⟨r, hd⟩, hb, hlf.trans (hf1.trans hf)⟩, hph, hl.trace.trans hp.1, hl.portIdle.trans hp.2.1,
              hl.sclO.trans hp.2.2.1, hl.sdaO.trans hp.2.2.2⟩
  · simp [presentWord, hf] at h
    subst h
    exact .inl ⟨fun ho => hf ho.2.2, SamePort.rfl' _⟩

/-! ### The invariant of the pin level -/

/-- A waveform has one sampling point for each bit the slave drives. -/
theorem samplingPoints_waveform (e : WireEvent) : samplingPoints (waveform e) = (slaveBits e).length := by
  cases e <;> rfl

/-- A waveform releases the data line before each sampling point, wherever it starts. -/
theorem released_waveform (e : WireEvent) (l : Levels) : releasedAtSamples (waveform e) l = true := by
  cases e <;>
    simp [waveform, writeBit, readBit, msbFirst, releasedAtSamples, PinAction.drive, List.replicate]

/-- Releasing the data line now spoils no later sampling point. -/
theorem released_mono {acts : List PinAction} {l l' : Levels} (h : l.sda = l'.sda ∨ l'.sda = 1#1)
    (hr : releasedAtSamples acts l = true) : releasedAtSamples acts l' = true := by
  induction acts generalizing l l' with
  | nil => rfl
  | cons a acts ih =>
    simp only [releasedAtSamples, Bool.and_eq_true, Bool.or_eq_true, beq_iff_eq] at hr ⊢
    refine ⟨hr.1.imp id fun hs => ?_, ih (l := a.drive l) ?_ hr.2⟩
    · obtain h | h := h
      · exact h ▸ hs
      · exact h
    · cases a <;> simp_all [PinAction.drive]

/-- A released line reads what the other devices leave on it (10_state.md R48). -/
theorem released_reads (b : Bit) : 1#1 &&& b = b := by revert b; decide

/-- Everything the port can do in one action. -/
theorem tick_cases (clock : Bit) (p : PinState) :
    (p.wave = [] ∧ tick clock p = { p with block := { p.block with portIdle := true } }) ∨
    (∃ rest, p.wave = .rise :: rest ∧ p.levels.scl &&& clock ≠ 1#1
      ∧ tick clock p = { p with block := { p.block with portIdle := false } }) ∨
    (∃ rest, p.wave = .sample :: rest
      ∧ tick clock p = { block := { p.block with portIdle := rest.isEmpty }, levels := p.levels, wave := rest,
                         sampled := p.sampled ++ [(lineLevels clock p).sda] }) ∨
    (∃ a rest, a ≠ .sample ∧ p.wave = a :: rest
      ∧ tick clock p = { block := { p.block with portIdle := rest.isEmpty }, levels := a.drive p.levels, wave := rest,
                         sampled := p.sampled }) := by
  obtain ⟨b, l, wave, bits⟩ := p
  cases wave with
  | nil => exact .inl ⟨rfl, by simp [tick]⟩
  | cons a rest =>
    cases a with
    | sample => exact .inr (.inr (.inl ⟨rest, rfl, by simp [tick]⟩))
    | rise =>
      by_cases h : l.scl &&& clock = 1#1
      · exact .inr (.inr (.inr ⟨.rise, rest, by simp, rfl, by simp [tick, runPins_rise, lineLevels, h, PinAction.drive]⟩))
      · exact .inr (.inl ⟨rest, rfl, h, by simp [tick, runPins_rise, lineLevels, h]⟩)
    | sda v => exact .inr (.inr (.inr ⟨.sda v, rest, by simp, rfl, by simp [tick, PinAction.drive]⟩))
    | scl v => exact .inr (.inr (.inr ⟨.scl v, rest, by simp, rfl, by simp [tick, PinAction.drive]⟩))
    | delay => exact .inr (.inr (.inr ⟨.delay, rest, by simp, rfl, by simp [tick, PinAction.drive]⟩))

@[simp] theorem lastSlaveBits_portIdle (s : State) (v : Bool) : lastSlaveBits { s with portIdle := v } = lastSlaveBits s := rfl
@[simp] theorem lastWave_portIdle (s : State) (v : Bool) : lastWave { s with portIdle := v } = lastWave s := rfl

/-- An action of the port keeps the invariant. -/
theorem tick_inv {p : PinState} (clock : Bit) (h : PinInv p) : PinInv (tick clock p) := by
  obtain ⟨hw, ht⟩ | ⟨rest, hw, -, ht⟩ | ⟨rest, hw, ht⟩ | ⟨a, rest, ha, hw, ht⟩ := tick_cases clock p <;> rw [ht]
  · exact ⟨by simp [hw], h.part, h.drawn, h.owed, h.released, h.lines⟩
  · exact ⟨by simp [hw], h.part, h.drawn, h.owed, h.released, h.lines⟩
  · have howed := h.owed
    have hrel := h.released
    have hlines := h.lines
    rw [hw] at howed hrel hlines
    simp [samplingPoints, releasedAtSamples, PinAction.drive] at howed hrel
    obtain ⟨later, hl⟩ := h.drawn
    refine ⟨rfl, (List.suffix_cons _ _).trans (hw ▸ h.part), ?_, ?_, hrel.2, ?_⟩
    · cases later with
      | nil => rw [← hl] at howed; simp at howed
      | cons b later =>
        have hb : (lineLevels clock p).sda = b := by
          simp [lineLevels, hrel.1, ← hl, released_reads]
        rw [hb, lastSlaveBits_portIdle, ← hl]
        exact ⟨later, by simp⟩
    · rw [lastSlaveBits_portIdle, ← howed]; simp only [List.length_append, List.length_singleton, samplingPoints]; omega
    · exact hlines
  · have howed := h.owed
    have hrel := h.released
    have hlines := h.lines
    rw [hw] at howed hrel hlines
    simp only [releasedAtSamples, Bool.and_eq_true] at hrel
    refine ⟨rfl, (List.suffix_cons _ _).trans (hw ▸ h.part), h.drawn, ?_, hrel.2, hlines⟩
    rw [lastSlaveBits_portIdle, ← howed]; simp [samplingPoints, ha]

/-- A step of the block that the port sees, or does not, keeps the invariant. -/
theorem startWave_inv {p : PinState} {t : State} (h : PinInv p)
    (hp : SamePort p.block t ∨ ∃ e, Records e p.block t) : PinInv (startWave p t) := by
  obtain hs | ⟨e, he⟩ := hp
  · have hd : t.trace.drop p.block.trace.length = [] := by simp [hs.trace]
    have hl : lastSlaveBits t = lastSlaveBits p.block := by simp [lastSlaveBits, hs.trace]
    have hw : lastWave t = lastWave p.block := by simp [lastWave, hs.trace]
    simp only [startWave, hd]
    exact ⟨hs.portIdle.trans h.idle, hw ▸ h.part, hl ▸ h.drawn, hl ▸ h.owed, h.released, by rw [hs.sclO, hs.sdaO]; exact h.lines⟩
  · have hd : t.trace.drop p.block.trace.length = [e] := by simp [he.trace]
    simp only [startWave, hd]
    refine ⟨by cases e <;> rfl, ?_, List.nil_prefix, ?_, released_waveform .., ?_⟩
    · simp [lastWave, he.trace]
    · simp [lastSlaveBits, he.trace, samplingPoints_waveform]
    · simp only [settle_waveform, he.lines]

/-- The rest of a STOP from released lines releases them. -/
theorem settle_stop_part {acts : List PinAction} (h : acts <:+ waveform .stop) : settle acts ⟨1#1, 1#1⟩ = ⟨1#1, 1#1⟩ := by
  simp only [waveform, List.suffix_cons_iff, List.suffix_nil] at h
  obtain rfl | rfl | rfl | rfl | rfl | rfl | rfl | rfl := h <;> rfl

/-- Where the trace ends a Transaction, the last event is the STOP. -/
theorem lastWave_free {s : State} (h : grammarPlace s.trace = some .free) : lastWave s = [] ∨ lastWave s = waveform .stop := by
  obtain ht | ⟨init, e, ht⟩ := List.eq_nil_or_concat s.trace
  · exact .inl (by simp [lastWave, ht])
  · right
    have he : e = .stop := by
      rw [ht, grammarPlace, List.concat_eq_append, List.foldl_append] at h
      simp only [List.foldl_cons, List.foldl_nil] at h
      generalize init.foldl (fun p e => p.bind fun q => grammarStep q e) (some .free) = q at h
      cases q with
      | none => cases h
      | some q =>
        simp only [Option.bind_some] at h
        cases q <;> cases e <;> simp [grammarStep] at h ⊢
        all_goals (split at h <;> cases h)
    simp [lastWave, ht, he]

theorem onPins_next {f : State → PinState} {o : Host.Outcome State Fault Refusal} {q : PinState} (h : onPins f o = .next q) :
    ∃ t, o = .next t ∧ f t = q := by
  cases o <;> cases h; exact ⟨_, rfl, rfl⟩

/-- A step of the block without an event leaves the waveform. -/
theorem startWave_of_trace {p : PinState} {t : State} (h : t.trace = p.block.trace) : startWave p t = { p with block := t } := by
  have hd : t.trace.drop p.block.trace.length = [] := by simp [h]
  simp only [startWave, hd]

/-- An accepted `OPEN` releases the lines. -/
theorem openLines_opens {w : Word} {p q : PinState} (h : OpensBus w p.block q.block) :
    openLines w p q = { q with levels := ⟨1#1, 1#1⟩ } := by
  obtain ⟨⟨r, hr⟩, hb, hf⟩ := h
  simp [openLines, hr, hb, hf, Instr.opcode]

/-- Any other presentation leaves them. -/
theorem openLines_other {w : Word} {p q : PinState} (h : ¬ OpensBus w p.block q.block) : openLines w p q = q := by
  unfold openLines
  split
  · rfl
  · rename_i i hi
    split
    · rename_i hc
      cases i with
      | busOpen r => exact absurd ⟨⟨r, hi⟩, hc.2⟩ h
      | _ => exact absurd hc.1 (by simp [Instr.opcode])
    · rfl

/-- Presenting a word leaves the block of the event level as it is there. -/
theorem openLines_block (w : Word) (p q : PinState) : (openLines w p q).block = q.block := by
  unfold openLines; split
  · rfl
  · split <;> rfl

/-- Every step at pin level keeps the invariant, on a bus whose trace follows the Transaction grammar. -/
theorem pinStep_inv {m : PinMove} {p q : PinState} (h : PinInv p) (hg : grammarPlace p.block.trace = some p.block.phase)
    (hs : pinStep m p = .next q) : PinInv q := by
  cases m with
  | port clock => cases hs; exact tick_inv clock h
  | reset => cases hs; exact ⟨rfl, List.nil_suffix, List.nil_prefix, rfl, rfl, rfl⟩
  | block =>
    obtain ⟨t, ht, rfl⟩ := onPins_next hs
    exact startWave_inv h (blockStep_port ht)
  | present w =>
    obtain ⟨t, ht, rfl⟩ := onPins_next hs
    obtain ⟨ho, hp⟩ | ⟨ho, hf, htr, hid, hsc, hsd⟩ := presentWord_port ht
    · rw [openLines_other (startWave_of_trace hp.trace ▸ ho)]
      exact startWave_inv h (.inl hp)
    · rw [startWave_of_trace htr, openLines_opens ho]
      have hl : lastSlaveBits t = lastSlaveBits p.block := by simp [lastSlaveBits, htr]
      have hw : lastWave t = lastWave p.block := by simp [lastWave, htr]
      refine ⟨hid.trans h.idle, hw ▸ h.part, hl ▸ h.drawn, hl ▸ h.owed, released_mono (.inr rfl) h.released, ?_⟩
      simp only [hsc, hsd]
      have hpart := h.part
      obtain he | he := lastWave_free (hf ▸ hg) <;> rw [he] at hpart
      · rw [List.suffix_nil.mp hpart]; rfl
      · exact settle_stop_part hpart

/-- The invariant holds at reset. -/
theorem pinReset_inv : PinInv PinState.reset := ⟨by decide, by decide, by decide, by decide, by decide, by decide⟩

/-- Once the waveform has run to its end, `PORT_IDLE` is 1, the lines are as the block says, and the bits that were on the data line
at the sampling points are the ones that the last event carries (40_bus_engine.md R145, R146). -/
theorem waveform_over {p : PinState} (h : PinInv p) (hw : p.wave = []) :
    p.block.portIdle = true ∧ p.levels = ⟨p.block.sclO, p.block.sdaO⟩ ∧ p.sampled = lastSlaveBits p.block := by
  have hi := h.idle
  have hl := h.lines
  have ho := h.owed
  rw [hw] at hi hl ho
  exact ⟨hi, hl, h.drawn.eq_of_length (by simpa [samplingPoints] using ho)⟩

/-! ### Refinement -/

/-- Moves one after the other, at the level of the wire events. -/
def takeMoves : List Move → State → Host.Outcome State Fault Refusal
  | [], s => .next s
  | m :: ms, s =>
    match takeMove m s with
    | .next t => takeMoves ms t
    | .fault r => .fault r
    | .refused r => .refused r

/-- A move of the block or the host, and then the environment's on `PORT_IDLE` where a waveform starts. -/
theorem startWave_moves {m : Move} {p : PinState} {t : State} (h : takeMove m p.block = .next t) :
    ∃ ms, takeMoves ms p.block = .next (startWave p t).block := by
  cases hd : t.trace.drop p.block.trace.length with
  | nil => exact ⟨[m], by simp [takeMoves, h, startWave, hd]⟩
  | cons e es => exact ⟨[m, .portIdle false], by simp only [takeMoves, h, startWave, hd]; rfl⟩

/-- Every step at pin level is moves of the machine of the wire events: the host's, the block's, reset, and the environment's on
`PORT_IDLE`. -/
theorem pinStep_refines {m : PinMove} {p q : PinState} (hs : pinStep m p = .next q) :
    ∃ ms, takeMoves ms p.block = .next q.block := by
  cases m with
  | port clock => cases hs; exact ⟨[.portIdle (tick clock p).block.portIdle], rfl⟩
  | reset => cases hs; exact ⟨[.reset, .portIdle true], rfl⟩
  | block =>
    obtain ⟨t, ht, rfl⟩ := onPins_next hs
    exact startWave_moves (m := .block) ht
  | present w =>
    obtain ⟨t, ht, rfl⟩ := onPins_next hs
    rw [openLines_block]
    exact startWave_moves (m := .present w) ht

end Sys2Proof.Laws
end

