-- ==== Sys2Proof/Laws/Run.lean ====
section
/-! SUPPORT. The big-step reading of a command (30_encoding.md R102): with the port idle and every check passing, a command's run
is its acceptance followed by the actions of its list in order, then its completion. `runOps` composes the actions; `run_command`
says that the block's steps do the same. -/

namespace Sys2Proof.Laws

open Sys2Proof.Machine

/-- The action of one micro-operation where its checks pass and the port is idle, none elsewhere. -/
def stepOp (u : MicroOp) (s : State) : Option State :=
  if s.openf = true ∧ legalPhase u s.phase = true ∧ s.portIdle = true then (readOperands u s).map fun p => perform p s
  else none

/-- The actions of a list in order. -/
def runOps : List MicroOp → State → Option State
  | [], s => some s
  | u :: us, s => (stepOp u s).bind (runOps us)

/-- The actions of two lists, one after the other. -/
theorem runOps_append (us vs : List MicroOp) (s : State) : runOps (us ++ vs) s = (runOps us s).bind (runOps vs) := by
  induction us generalizing s with
  | nil => rfl
  | cons u us ih => simp only [List.cons_append, runOps]; cases stepOp u s <;> simp [ih]

/-- The state with the command word `w` in progress and its next micro-operation at `pc`. -/
abbrev inSeq (w : Word) (pc : BitVec 6) (s : State) : State := { s with seqCmd := some w, seqPc := pc, busy := true }

/-- Operands are not read from the sequencer's registers. -/
theorem readOperands_inSeq (u : MicroOp) (w : Word) (pc : BitVec 6) (s : State) :
    readOperands u (inSeq w pc s) = readOperands u s := by
  cases u with
  | sa x m => cases x <;> rfl
  | sb e => cases e <;> rfl
  | _ => rfl

/-- Actions neither read nor write the sequencer's registers. -/
theorem perform_inSeq (p : Primitive) (w : Word) (pc : BitVec 6) (s : State) :
    perform p (inSeq w pc s) = inSeq w pc (perform p s) := by
  cases p with
  | receive d => cases d <;> rfl
  | _ => rfl

/-- No action raises a fault. -/
theorem perform_fault (p : Primitive) (s : State) : (perform p s).fault = s.fault := by
  cases p with
  | receive d => cases d <;> rfl
  | _ => rfl

/-- The rest of a list, one micro-operation a step, to the end. -/
theorem runBlock_ops (i : Instr) (hd : decode (encode i) = .ok i) :
    ∀ (us pre : List MicroOp) (s t : State), prog i = pre ++ us → us ≠ [] → s.fault = .noFault → runOps us s = some t →
      runBlock us.length (inSeq (encode i) (BitVec.ofNat 6 pre.length) s)
        = .next { t with seqCmd := some (encode i), seqPc := 0#6, busy := false } := by
  intro us
  induction us with
  | nil => intro _ _ _ _ h; exact absurd rfl h
  | cons u us ih =>
    intro pre s t hp _ hf hr
    have hlen := prog_length_le i
    have hlen' : (prog i).length = pre.length + (us.length + 1) := by rw [hp]; simp
    generalize hq : BitVec.ofNat 6 pre.length = pc
    have hpc : pc.toNat = pre.length := by rw [← hq]; simp; omega
    simp only [runOps, stepOp] at hr
    split at hr
    · rename_i hc
      cases ho : readOperands u s with
      | none => simp [ho] at hr
      | some p =>
        simp only [ho, Option.map_some, Option.bind_some] at hr
        have hin : InProgress i u (inSeq (encode i) pc s) :=
          ⟨hf, rfl, by show (prog i)[pc.toNat]? = some u; rw [hpc, hp]; simp⟩
        have hlat : latched (inSeq (encode i) pc s) = some i := by simp [latched, hd, Except.toOption]
        have hstep : blockStep (inSeq (encode i) pc s) = .next (advance (prog i).length (inSeq (encode i) pc (perform p s))) := by
          rw [blockStep_latched (s := inSeq (encode i) pc s) hf rfl hlat, exec_inProgress hin,
            microOp_runs (s := inSeq (encode i) pc s) (p := p) hc.1 hc.2.1
              (by rw [readOperands_inSeq u (encode i) pc s]; exact ho) hc.2.2, perform_inSeq]
        rw [List.length_cons, runBlock_succ hstep]
        have hsucc : (pc + 1#6).toNat = pre.length + 1 := by rw [seqPc_succ _ (by omega), hpc]
        cases us with
        | nil =>
          simp [runOps] at hr; subst hr
          simp [advance, hsucc, hlen', runBlock]
        | cons v vs =>
          have hne : ¬ (pre.length + 1 = (prog i).length) := by rw [hlen']; simp
          rw [← ih (pre ++ [u]) (perform p s) t (by rw [hp]; simp) (by simp) (by rw [perform_fault]; exact hf) hr]
          simp only [advance, hsucc, hne, if_false]
          congr 2
          simp [← hq, BitVec.ofNat_add]
    · simp at hr

/-- A whole command (30_encoding.md R102): accepted by the idle block, then run to its end. -/
theorem run_command {i : Instr} {s s1 t : State} (hd : decode (encode i) = .ok i) (h : Idle s)
    (he : acceptEffects i s = .ok s1) (hl : prog i ≠ []) (hf : s1.fault = .noFault) (hr : runOps (prog i) s1 = some t) :
    exec i s = .next (inSeq (encode i) 0#6 s1)
    ∧ runBlock (prog i).length (inSeq (encode i) 0#6 s1)
        = .next { t with seqCmd := some (encode i), seqPc := 0#6, busy := false } :=
  ⟨by rw [exec_idle i h, accept_latches he hl], runBlock_ops i hd (prog i) [] s1 t rfl hl hf hr⟩

end Sys2Proof.Laws
end

