-- ==== Sys2Proof/Tests/Slice0.lean ====
section
/-! SUPPORT. Tests and witnesses. Expected results are those of 95_test_vectors.md (the vector is named in each docstring) or are
read off the numbered rule named there. A witness theorem shows a concrete state and operands that meet all hypotheses of an
obligation together. -/

namespace Sys2Proof.Tests

open Sys2Proof Sys2Proof.Machine Sys2Proof.Claims

/-! ## Well-formed commands -/

theorem test_wf_accepts : (RawCommand.mk .ee17Write [0x1ABCD, 0x5A]).toInstr = some (.ee17Write 0x1ABCD#17 0x5A#8) := by decide

/-- The arity check: an operand missing, an operand too many. -/
theorem test_wf_refuses_arity :
    (RawCommand.mk .ee17Write [0x1ABCD]).arityOk = false ∧ (RawCommand.mk .ee17Write [0x1ABCD]).toInstr = none
    ∧ (RawCommand.mk .busBegin [0]).arityOk = false ∧ (RawCommand.mk .busBegin [0]).toInstr = none := by decide

/-- The range check: a 3-bit physical address, an 8-bit slave address, an 18-bit offset, a cache index of 8. -/
theorem test_wf_refuses_range :
    (RawCommand.mk .ee17Init [4]).rangesOk = false ∧ (RawCommand.mk .ee17Init [4]).toInstr = none
    ∧ (RawCommand.mk .sendAddress [0x80, 0]).rangesOk = false ∧ (RawCommand.mk .sendAddress [0x80, 0]).toInstr = none
    ∧ (RawCommand.mk .ee17Read [0x20000]).rangesOk = false ∧ (RawCommand.mk .ee17Read [0x20000]).toInstr = none
    ∧ (RawCommand.mk .rtcCacheGet [8]).rangesOk = false ∧ (RawCommand.mk .rtcCacheGet [8]).toInstr = none := by decide

/-! ## Decoding, words of 95_test_vectors.md 2.1 -/

theorem test_decode_engine :
    decode 0x04000001#32 = .ok (.busOpen 0x01#8) ∧ decode 0x08000000#32 = .ok .busBegin
    ∧ decode 0x0C000000#32 = .ok .busRepeatBegin ∧ decode 0x10000000#32 = .ok .busEnd
    ∧ decode 0x14000150#32 = .ok (.sendAddress 0x50#7 .read) ∧ decode 0x1400007F#32 = .ok (.sendAddress 0x7F#7 .write)
    ∧ decode 0x1800005A#32 = .ok (.sendByte 0x5A#8) ∧ decode 0x1C000000#32 = .ok .receiveByte
    ∧ decode 0x20000001#32 = .ok (.sendAck 1#1) ∧ decode 0x20000000#32 = .ok (.sendAck 0#1)
    ∧ decode 0x24000000#32 = .ok .readAck := ⟨rfl, rfl, rfl, rfl, rfl, rfl, rfl, rfl, rfl, rfl, rfl⟩

theorem test_decode_eeprom :
    decode 0x40000001#32 = .ok (.ee17Init 1#2) ∧ decode 0x45ABCD00#32 = .ok (.ee17Read 0x1ABCD#17)
    ∧ decode 0x49ABCD5A#32 = .ok (.ee17Write 0x1ABCD#17 0x5A#8) ∧ decode 0x49FFFFFF#32 = .ok (.ee17Write 0x1FFFF#17 0xFF#8)
    ∧ decode 0x4C000000#32 = .ok .ee17IsWriteBusy ∧ decode 0x50000003#32 = .ok (.ee12Init 3#3)
    ∧ decode 0x540ABC00#32 = .ok (.ee12Read 0xABC#12) ∧ decode 0x580ABC7E#32 = .ok (.ee12Write 0xABC#12 0x7E#8)
    ∧ decode 0x5C000000#32 = .ok .ee12IsWriteBusy := ⟨rfl, rfl, rfl, rfl, rfl, rfl, rfl, rfl, rfl⟩

theorem test_decode_rtc :
    decode 0x60000000#32 = .ok (.rtcInit 0#3) ∧ decode 0x64000002#32 = .ok (.rtcRead 0x02#8)
    ∧ decode 0x68000710#32 = .ok (.rtcWrite 0x07#8 0x10#8) ∧ decode 0x6C000000#32 = .ok .rtcGetClock
    ∧ decode 0x70000000#32 = .ok .rtcSetClock ∧ decode 0x74000000#32 = .ok .rtcStopClock
    ∧ decode 0x78000000#32 = .ok .rtcStartClock ∧ decode 0x7C000001#32 = .ok (.rtcCacheGet 1#3)
    ∧ decode 0x80000135#32 = .ok (.rtcCachePut 1#3 0x35#8) ∧ decode 0x800007FF#32 = .ok (.rtcCachePut 7#3 0xFF#8) :=
  ⟨rfl, rfl, rfl, rfl, rfl, rfl, rfl, rfl, rfl, rfl⟩

theorem test_decode_gpx :
    decode 0x90000007#32 = .ok (.gpxInit 7#3) ∧ decode 0x94000013#32 = .ok (.gpxRead 0x13#8)
    ∧ decode 0x980000FF#32 = .ok (.gpxWrite 0x00#8 0xFF#8) := ⟨rfl, rfl, rfl⟩

theorem test_decode_unknown_opcode :
    decode 0x00000000#32 = .error .unknownOpcode ∧ decode 0xFFFFFFFF#32 = .error .unknownOpcode
    ∧ decode 0x28000000#32 = .error .unknownOpcode ∧ decode 0x3C000000#32 = .error .unknownOpcode
    ∧ decode 0x84000000#32 = .error .unknownOpcode ∧ decode 0x8C000000#32 = .error .unknownOpcode
    ∧ decode 0x9C000000#32 = .error .unknownOpcode := ⟨rfl, rfl, rfl, rfl, rfl, rfl, rfl⟩

theorem test_decode_must_be_zero :
    decode 0x08000001#32 = .error .mustBeZeroSet ∧ decode 0x1C000100#32 = .error .mustBeZeroSet
    ∧ decode 0x14000080#32 = .error .mustBeZeroSet ∧ decode 0x14000250#32 = .error .mustBeZeroSet
    ∧ decode 0x20000002#32 = .error .mustBeZeroSet ∧ decode 0x04000100#32 = .error .mustBeZeroSet
    ∧ decode 0x40000004#32 = .error .mustBeZeroSet ∧ decode 0x46000000#32 = .error .mustBeZeroSet
    ∧ decode 0x44000001#32 = .error .mustBeZeroSet ∧ decode 0x4A000000#32 = .error .mustBeZeroSet :=
  ⟨rfl, rfl, rfl, rfl, rfl, rfl, rfl, rfl, rfl, rfl⟩

theorem test_decode_must_be_zero_more :
    decode 0x54100000#32 = .error .mustBeZeroSet ∧ decode 0x58100000#32 = .error .mustBeZeroSet
    ∧ decode 0x60000008#32 = .error .mustBeZeroSet ∧ decode 0x68010000#32 = .error .mustBeZeroSet
    ∧ decode 0x7C000008#32 = .error .mustBeZeroSet ∧ decode 0x80000800#32 = .error .mustBeZeroSet
    ∧ decode 0x94000100#32 = .error .mustBeZeroSet := ⟨rfl, rfl, rfl, rfl, rfl, rfl, rfl⟩

theorem test_encode_words :
    encode (.ee17Write 0x1ABCD#17 0x5A#8) = 0x49ABCD5A#32 ∧ encode (.sendAddress 0x50#7 .read) = 0x14000150#32
    ∧ encode (.ee12Read 0xABC#12) = 0x540ABC00#32 ∧ encode (.rtcCachePut 7#3 0xFF#8) = 0x800007FF#32 := by decide

/-! ## Small states -/

/-- The parameters of 95_test_vectors.md: the defaults, with the table made up there. `DIV_WIDTH` = 8 is this file's. -/
def cfg : Config := { divWidth := 8, rateTable := [(0x01#8, 9), (0x02#8, 39)] }

/-- The reset state with these parameters, the port idle, and the given answers to come. -/
def fresh (answers : List Answer) : State := { State.reset with cfg := cfg, portIdle := true, answers := answers }

/-- "Opened": the reset state after `OPEN(0x01)`. -/
def opened (answers : List Answer) : State := { fresh answers with openf := true, div := some 9 }

/-- Opened, all four drivers initialised (V14, V20, V25, V35), the cache filled as in V31. -/
def ready (answers : List Answer) : State :=
  { opened answers with
    ee17Sa := some 0x51#7, ee12Sa := some 0x53#7, rtcSa := some 0x68#7, gpxSa := some 0x27#7,
    rtcc := #v[some 0xD6#8, some 0x34#8, some 0x12#8, some 0x03#8, some 0x15#8, some 0x11#8, some 0x26#8, none] }

/-- The command of a word in progress, at a place in its list and in a phase. -/
def within (w : Word) (pc : BitVec 6) (p : Phase) (s : State) : State :=
  { s with seqCmd := some w, seqPc := pc, busy := true, phase := p }

/-- A field of the next state. -/
def look {α : Type} (f : State → α) (o : Host.Outcome State Fault Refusal) : Option α :=
  match o with
  | .next t => some (f t)
  | .fault _ => none
  | .refused _ => none

/-- An answer that acknowledges, with a data byte; and one that does not. -/
def ackd (d : Byte) : Answer := ⟨0#1, d⟩
def nack : Answer := ⟨1#1, 0xFF#8⟩

/-! ## Bus Engine -/

/-- V1. -/
theorem test_open : look (fun t => (t.openf, t.div, t.trace, t.busy)) (step ((fresh []).withFetchWord 32 0x04000001))
    = some (true, some 9, [], false) := by decide

/-- V46, V47. -/
theorem test_open_faults :
    look (fun t => (t.fault, t.faultInfo, t.openf)) (step ((fresh []).withFetchWord 32 0x0400007F))
      = some (.config, some 0x0400007F#32, false)
    ∧ look (fun t => (t.fault, t.phase)) (step (({ opened [] with phase := .started } : State).withFetchWord 32 0x04000002))
      = some (.protocol, .started) := by decide

/-- V2. -/
theorem test_begin : look (fun t => (t.phase, t.trace, t.busy, t.sclO, t.sdaO)) (step (within 0x08000000#32 0 .free (opened [])))
    = some (.started, [.start], false, 0#1, 0#1) := by decide

/-- V39. -/
theorem test_begin_not_open :
    look (fun t => (t.fault, t.faultInfo, t.busy, t.trace)) (step (within 0x08000000#32 0 .free (fresh [])))
      = some (.notOpen, some 0x08000000#32, true, []) := by decide

/-- V5, V10. -/
theorem test_repeat_begin :
    look (fun t => (t.phase, t.trace)) (step (within 0x0C000000#32 0 .tx (opened []))) = some (.started, [.restart])
    ∧ look (fun t => (t.fault, t.trace)) (step (within 0x0C000000#32 0 .rxReady (opened []))) = some (.protocol, []) := by decide

/-- V9. -/
theorem test_end : look (fun t => (t.phase, t.trace, t.sclO, t.sdaO)) (step (within 0x10000000#32 0 .rxDone (opened [])))
    = some (.free, [.stop], 1#1, 1#1) := by decide

/-- V40. -/
theorem test_end_without_ack :
    look (fun t => (t.fault, t.faultInfo, t.phase, t.busy)) (step (within 0x10000000#32 0 .rxNeedAck (opened [])))
      = some (.protocol, some 0x10000000#32, .rxNeedAck, true) := by decide

/-- V6, V11. -/
theorem test_send_address :
    look (fun t => (t.phase, t.trace, t.ackl)) (step (within 0x14000168#32 0 .started (opened [ackd 0#8])))
      = some (.rxReady, [.tx 0xD1#8 0#1], some 0#1)
    ∧ look (fun t => (t.phase, t.trace)) (step (within 0x1400007F#32 0 .started (opened [ackd 0#8])))
      = some (.tx, [.tx 0xFE#8 0#1]) := by decide

/-- V12: a missing acknowledge is silent. -/
theorem test_send_byte_nack :
    look (fun t => (t.phase, t.trace, t.ackl, t.fault)) (step (within 0x18000012#32 0 .tx (opened [nack])))
      = some (.tx, [.tx 0x12#8 1#1], some 1#1, .noFault) := by decide

/-- V49. -/
theorem test_send_byte_outside :
    look (fun t => (t.fault, t.faultInfo, t.busy)) (step (within 0x18000001#32 0 .free (opened [])))
      = some (.protocol, some 0x18000001#32, true) := by decide

/-- V7. -/
theorem test_receive_byte :
    look (fun t => (t.phase, t.rxb, t.rsp, t.trace)) (step (within 0x1C000000#32 0 .rxReady (opened [ackd 0x37#8])))
      = some (.rxNeedAck, some 0x37#8, some 0x37#8, [.rx 0x37#8]) := by decide

/-- V8, V13. -/
theorem test_send_ack :
    look (fun t => (t.phase, t.trace)) (step (within 0x20000001#32 0 .rxNeedAck (opened []))) = some (.rxDone, [.ma 1#1])
    ∧ look (fun t => (t.phase, t.trace)) (step (within 0x20000000#32 0 .rxNeedAck (opened []))) = some (.rxReady, [.ma 0#1]) := by
  decide

/-- V9b, V12. -/
theorem test_read_ack :
    look (fun t => (t.rsp, t.phase, t.ackl, t.trace)) (step (within 0x24000000#32 0 .free { opened [] with ackl := some 1#1 }))
      = some (some 0x01#8, .free, some 1#1, []) := by decide

/-- V43. -/
theorem test_read_ack_unwritten :
    look (fun t => (t.fault, t.faultInfo, t.busy)) (step (within 0x24000000#32 0 .free (opened [])))
      = some (.unwritten, some 0x24000000#32, true) := by decide

/-! ## EEPROM drivers -/

/-- V14. -/
theorem test_ee17_init : look (fun t => (t.ee17Sa, t.fault, t.busy)) (step ((fresh []).withFetchWord 32 0x40000001))
    = some (some 0x51#7, .noFault, false) := by decide

/-- V15: acceptance sets the bank bit. -/
theorem test_ee17_read_accepted :
    look (fun t => (t.ee17Sa, t.busy, t.seqPc, t.seqCmd)) (step ((ready []).withFetchWord 32 0x45ABCD00))
      = some (some 0x55#7, true, 0#6, some 0x45ABCD00#32) := by decide

/-- V15: the second offset byte. -/
theorem test_ee17_read_low_byte :
    look (fun t => (t.trace, t.seqPc)) (step (within 0x45ABCD00#32 3 .tx (ready [ackd 0#8]))) = some ([.tx 0xCD#8 0#1], 4#6) := by
  decide

/-- V16: the bank bit is recomputed from 1 to 0; V42: no `EE17_INIT` yet. -/
theorem test_ee17_write_accepted :
    look (fun t => t.ee17Sa) (step (({ ready [] with ee17Sa := some 0x55#7 } : State).withFetchWord 32 0x48ABCD5A))
      = some (some 0x51#7)
    ∧ look (fun t => (t.fault, t.busy)) (step ((opened []).withFetchWord 32 0x48ABCD5A)) = some (.unwritten, false) := by decide

/-- V16: the data byte. -/
theorem test_ee17_write_data :
    look (fun t => t.trace) (step (within 0x49ABCD5A#32 4 .tx (ready [ackd 0#8]))) = some [.tx 0x5A#8 0#1] := by decide

/-- V52: micro-step 2. -/
theorem test_ee17_busy_result :
    look (fun t => (t.rsp, t.seqPc, t.phase, t.busy)) (step (within 0x4C000000#32 2 .tx { ready [] with ackl := some 1#1 }))
      = some (some 0x01#8, 3#6, .tx, true) := by decide

/-- V52: micro-step 3 completes the command. -/
theorem test_ee17_busy_completes :
    look (fun t => (t.busy, t.seqPc, t.phase, t.trace)) (step (within 0x4C000000#32 3 .tx (ready [])))
      = some (false, 0#6, .free, [.stop]) := by decide

/-- V20. -/
theorem test_ee12_init : look (fun t => (t.ee12Sa, t.trace)) (step ((fresh []).withFetchWord 32 0x50000003))
    = some (some 0x53#7, []) := by decide

/-- V21: the first offset byte, and the byte read. -/
theorem test_ee12_read :
    look (fun t => t.trace) (step (within 0x540ABC00#32 2 .tx (ready [ackd 0#8]))) = some [.tx 0x0A#8 0#1]
    ∧ look (fun t => (t.rsp, t.rxb)) (step (within 0x540ABC00#32 6 .rxReady (ready [ackd 0x42#8])))
      = some (some 0x42#8, some 0x42#8) := by decide

/-- V22: the address byte, and the last byte. -/
theorem test_ee12_write :
    look (fun t => t.trace) (step (within 0x580ABC7E#32 1 .started (ready [ackd 0#8]))) = some [.tx 0xA6#8 0#1]
    ∧ look (fun t => t.trace) (step (within 0x580ABC7E#32 4 .tx (ready [ackd 0#8]))) = some [.tx 0x7E#8 0#1] := by decide

/-- V23. -/
theorem test_ee12_busy :
    look (fun t => (t.trace, t.ackl)) (step (within 0x5C000000#32 1 .started (ready [nack])))
      = some ([.tx 0xA6#8 1#1], some 1#1) := by decide

/-! ## RTC driver -/

/-- V25. -/
theorem test_rtc_init : look (fun t => t.rtcSa) (step ((fresh []).withFetchWord 32 0x60000007)) = some (some 0x6F#7) := by decide

/-- V26. -/
theorem test_rtc_read :
    look (fun t => t.trace) (step (within 0x64000002#32 4 .started (ready [ackd 0#8]))) = some [.tx 0xD1#8 0#1]
    ∧ look (fun t => (t.trace, t.phase)) (step (within 0x64000002#32 6 .rxNeedAck (ready []))) = some ([.ma 1#1], .rxDone) := by
  decide

/-- V27. -/
theorem test_rtc_write :
    look (fun t => t.trace) (step (within 0x68000710#32 2 .tx (ready [ackd 0#8]))) = some [.tx 0x07#8 0#1]
    ∧ look (fun t => t.trace) (step (within 0x68000710#32 3 .tx (ready [ackd 0#8]))) = some [.tx 0x10#8 0#1] := by decide

/-- V28: the last data byte goes to entry 7; it is the one that is not acknowledged. -/
theorem test_rtc_get_clock :
    look (fun t => (cacheAt t 7, cacheAt t 6, t.rsp)) (step (within 0x6C000000#32 19 .rxReady (ready [ackd 0x10#8])))
      = some (some 0x10#8, some 0x26#8, none)
    ∧ look (fun t => t.trace) (step (within 0x6C000000#32 18 .rxNeedAck (ready []))) = some [.ma 0#1]
    ∧ look (fun t => t.trace) (step (within 0x6C000000#32 20 .rxNeedAck (ready []))) = some [.ma 1#1] := by decide

/-- V31: entry 16 is the first byte of the burst, entry 22 the last. -/
theorem test_rtc_set_clock :
    look (fun t => t.trace) (step (within 0x70000000#32 16 .tx (ready [ackd 0#8]))) = some [.tx 0xD6#8 0#1]
    ∧ look (fun t => t.trace) (step (within 0x70000000#32 22 .tx (ready [ackd 0#8]))) = some [.tx 0x26#8 0#1] := by decide

/-- V44; and entry 7 is not needed (V31). -/
theorem test_rtc_set_clock_needs_cache :
    look (fun t => (t.fault, t.busy)) (step (({ ready [] with rtcc := (ready []).rtcc.set 6 none } : State).withFetchWord 32 0x70000000))
      = some (.unwritten, false)
    ∧ look (fun t => (t.fault, t.busy)) (step ((ready []).withFetchWord 32 0x70000000)) = some (.noFault, true) := by decide

/-- V29. -/
theorem test_rtc_stop_clock :
    look (fun t => t.trace) (step (within 0x74000000#32 11 .tx { ready [ackd 0#8] with seqTmp := some 0x56#8 }))
      = some [.tx 0xD6#8 0#1] := by decide

/-- V30. -/
theorem test_rtc_start_clock :
    look (fun t => t.trace) (step (within 0x78000000#32 11 .tx { ready [ackd 0#8] with seqTmp := some 0xD6#8 }))
      = some [.tx 0x56#8 0#1] := by decide

/-- V33, V48. -/
theorem test_rtc_cache_get :
    look (fun t => (t.rsp, t.busy)) (step ((ready []).withFetchWord 32 0x7C000001)) = some (some 0x34#8, false)
    ∧ look (fun t => (t.fault, t.faultInfo)) (step ((fresh []).withFetchWord 32 0x7C000003))
      = some (.unwritten, some 0x7C000003#32) := by decide

/-- V33. -/
theorem test_rtc_cache_put :
    look (fun t => (cacheAt t 1, cacheAt t 0, t.busy)) (step ((fresh []).withFetchWord 32 0x80000135))
      = some (some 0x35#8, none, false) := by decide

/-! ## GPIO-expander driver -/

/-- V35. -/
theorem test_gpx_init : look (fun t => t.gpxSa) (step ((fresh []).withFetchWord 32 0x90000007)) = some (some 0x27#7) := by decide

/-- V36. -/
theorem test_gpx_read :
    look (fun t => t.trace) (step (within 0x94000013#32 2 .tx (ready [ackd 0#8]))) = some [.tx 0x13#8 0#1]
    ∧ look (fun t => (t.rsp, t.phase)) (step (within 0x94000013#32 5 .rxReady (ready [ackd 0xEE#8])))
      = some (some 0xEE#8, .rxNeedAck) := by decide

/-- V37. -/
theorem test_gpx_write :
    look (fun t => t.trace) (step (within 0x980000FF#32 1 .started (ready [ackd 0#8]))) = some [.tx 0x4E#8 0#1]
    ∧ look (fun t => t.trace) (step (within 0x980000FF#32 3 .tx (ready [ackd 0#8]))) = some [.tx 0xFF#8 0#1] := by decide

/-! ## Faults, hang, reset -/

/-- V38, V45, V50. -/
theorem test_acceptance_order :
    look (fun t => (t.fault, t.faultInfo, t.busy)) (step ((opened []).withFetchWord 32 0x08000001))
      = some (.illegalCmd, some 0x08000001#32, false)
    ∧ look (fun t => (t.fault, t.faultInfo, t.seqPc))
        (step ((within 0x94000013#32 2 .tx (ready [])).withFetchWord 32 0x08000000)) = some (.reentry, some 0x08000000#32, 2#6)
    ∧ look (fun t => (t.fault, t.openf))
        (step (({ fresh [] with fault := .illegalCmd } : State).withFetchWord 32 0x04000001)) = some (.illegalCmd, false) := by
  decide

/-- V51: with the port not idle nothing changes. -/
theorem test_hang :
    step (within 0x48000000#32 3 .tx { ready [] with portIdle := false })
      = .next (within 0x48000000#32 3 .tx { ready [] with portIdle := false }) := rfl

/-- R240: reset leaves a hang. -/
theorem test_reset_move :
    look (fun t => (t.busy, t.openf, t.fault, t.rtcSa))
        (step { within 0x48000000#32 3 .tx (ready []) with sched := [.reset] }) = some (false, false, .noFault, none) := by decide

/-! ## Pin level -/

/-- R144, R145: the byte 0x80 starts with one high bit cell and then a low one. -/
theorem test_waveform_tx : (waveform (.tx 0x80#8 0#1)).take 8
    = [.sda 1#1, .delay, .scl 1#1, .rise, .delay, .scl 0#1, .delay, .sda 0#1] := by decide

/-- R145: eight bits sampled, the first being bit 7. -/
theorem test_byte_of_bits : byteOfBits [1#1, 0#1, 0#1, 0#1, 0#1, 0#1, 1#1, 0#1] = 0x82#8 := by decide

/-- The port of `midTransaction` after `RECEIVE_BYTE` has recorded `RX(0x37)`: its waveform still to run. -/
def receiving : PinState where
  block   := { opened [] with trace := [.start, .tx 0xD1#8 0#1, .rx 0x37#8], phase := .rxNeedAck, portIdle := false }
  levels  := ⟨0#1, 1#1⟩
  wave    := waveform (.rx 0x37#8)
  sampled := []

/-- A field of the next state at pin level. -/
def lookPins {α : Type} (f : PinState → α) (o : Host.Outcome PinState Fault Refusal) : Option α :=
  match o with
  | .next q => some (f q)
  | .fault _ => none
  | .refused _ => none

/-- R141, R146: `BEGIN` starts the waveform of `S` and the port is not idle; the first action drives the data line low. -/
theorem test_pin_begin :
    lookPins (fun q => (q.block.portIdle, q.levels, q.wave))
        (pinStep .block ⟨within 0x08000000#32 0 .free (opened []), ⟨1#1, 1#1⟩, [], []⟩)
      = some (false, ⟨1#1, 1#1⟩, [.sda 0#1, .delay, .scl 0#1, .delay])
    ∧ lookPins (fun q => (q.block.portIdle, q.levels)) (pinStep (.port 1#1) { receiving with wave := [.sda 0#1, .delay] })
      = some (false, ⟨0#1, 0#1⟩) := by decide

/-- R146: the last action makes the port idle; a held `rise` does not pass. -/
theorem test_pin_idle :
    lookPins (fun q => q.block.portIdle) (pinStep (.port 1#1) { receiving with wave := [.delay] }) = some true
    ∧ lookPins (fun q => (q.block.portIdle, q.wave))
        (pinStep (.port 0#1) { receiving with levels := ⟨1#1, 1#1⟩, wave := [.rise, .sample] }) = some (false, [.rise, .sample]) := by
  decide

/-- R145: `sda_i` at the third sampling point of `RX(0x37)` is bit 5. -/
theorem test_pin_sample :
    lookPins (fun q => q.sampled) (pinStep (.port 1#1) { receiving with wave := [.sample], sampled := [0#1, 0#1] })
      = some [0#1, 0#1, 1#1] := by decide

/-- R123: `OPEN` right after `END` releases both lines in the middle of the STOP and does not touch its waveform. -/
theorem test_pin_open :
    lookPins (fun q => (q.levels, q.wave))
        (pinStep (.present 0x04000001#32) { receiving with block := opened [], levels := ⟨0#1, 0#1⟩, wave := [.delay] })
      = some (⟨1#1, 1#1⟩, [.delay]) := by decide

/-! ## Witnesses: each meets the hypotheses of the obligation it is named after -/

theorem witness_EncodeOfDecodedIsTheWord : decode 0x49FFFFFF#32 = .ok (.ee17Write 0x1FFFF#17 0xFF#8) := rfl

theorem witness_EveryWordIsOneCommandOrIllegal :
    (∃ r ∈ opcodeRows, passes 0x49FFFFFF#32 r) ∧ decode 0x49FFFFFF#32 = .ok (.ee17Write 0x1FFFF#17 0xFF#8)
    ∧ ∀ r ∈ opcodeRows, ¬ passes 0x4A000000#32 r := by
  refine ⟨⟨(.ee17Write, 0x48000000#32, 0xFE000000#32), by decide, by decide⟩, rfl, by decide⟩

/-- An idle state in which the host presents a word. -/
def offered (w : Word) (s : State) : State := { s with sched := [.present w] }

theorem witness_IllegalWordsFaultWithoutEffect :
    (offered 0x00000000#32 (opened [])).sched = .present 0x00000000#32 :: [] ∧ Idle (offered 0x00000000#32 (opened []))
    ∧ decode 0x00000000#32 = .error .unknownOpcode ∧ decode 0x80000800#32 = .error .mustBeZeroSet := by decide

theorem witness_PresentedWordRunsItsCommand :
    (offered 0x980000FF#32 (ready [])).sched = .present 0x980000FF#32 :: [] ∧ Idle (offered 0x980000FF#32 (ready []))
    ∧ decode 0x980000FF#32 = .ok (.gpxWrite 0x00#8 0xFF#8) := by decide

/-- `GPX_WRITE` in progress at its last entry. -/
def busyState : State := within 0x980000FF#32 4 .tx (ready [])

theorem witness_BlockStepRunsTheLatchedCommand :
    busyState.fault = .noFault ∧ busyState.busy = true ∧ busyState.seqCmd = some 0x980000FF#32
    ∧ decode 0x980000FF#32 = .ok (.gpxWrite 0x00#8 0xFF#8) ∧ busyState.sched = []
    ∧ ({ busyState with sched := [.block] } : State).sched = .block :: [] := by decide

theorem witness_BlockRunsAreRunsOfTheMachine :
    busyState.sched = [] ∧ ({ busyState with sched := [.block] } : State).sched = List.replicate 1 .block ++ []
    ∧ look (fun t => t.phase) (runBlock 1 busyState) = some .free := by decide

/-- Each case of R93: stopped, busy, illegal, accepted with a fault, a local command, a command with a list. -/
theorem witness_AcceptanceTakesTheFirstCase :
    ((offered 0x90000007#32 { fresh [] with fault := .config }).sched = .present 0x90000007#32 :: []
      ∧ (offered 0x90000007#32 { fresh [] with fault := .config }).fault ≠ .noFault)
    ∧ ((offered 0x90000007#32 busyState).fault = .noFault ∧ (offered 0x90000007#32 busyState).busy = true)
    ∧ (Idle (offered 0xFFFFFFFF#32 (fresh [])) ∧ decode 0xFFFFFFFF#32 = .error .unknownOpcode)
    ∧ (Idle (offered 0x44000000#32 (fresh [])) ∧ decode 0x44000000#32 = .ok (.ee17Read 0#17)
      ∧ acceptEffects (.ee17Read 0#17) (fresh []) = .error .unwritten)
    ∧ (Idle (offered 0x90000007#32 (fresh [])) ∧ decode 0x90000007#32 = .ok (.gpxInit 7#3)
      ∧ acceptEffects (.gpxInit 7#3) (fresh []) = .ok { fresh [] with gpxSa := some 0x27#7 }
      ∧ Instr.opcode (.gpxInit 7#3) ∈ localOpcodes)
    ∧ (Idle (offered 0x94000013#32 (ready [])) ∧ decode 0x94000013#32 = .ok (.gpxRead 0x13#8)
      ∧ acceptEffects (.gpxRead 0x13#8) (ready []) = .ok (ready []) ∧ Instr.opcode (.gpxRead 0x13#8) ∉ localOpcodes) :=
  ⟨⟨rfl, by decide⟩, ⟨rfl, rfl⟩, ⟨by decide, rfl⟩, ⟨by decide, rfl, rfl⟩, ⟨by decide, rfl, rfl, by decide⟩,
   ⟨by decide, rfl, rfl, by decide⟩⟩

theorem witness_FaultedBlockIsStoppedUntilReset :
    ({ fresh [] with fault := .config, sched := [.block] } : State).fault ≠ .noFault
    ∧ ({ fresh [] with fault := .config, sched := [.block] } : State).sched.head? ≠ some .reset := by decide

theorem witness_ResetLeavesTheResetValues : ({ busyState with sched := [.reset] } : State).sched = .reset :: [] := rfl

/-- Each case of a micro-step; the two ends of a list. -/
theorem witness_MicroStepChecksInOrder :
    (InProgress (.gpxWrite 0x00#8 0xFF#8) .stop busyState ∧ busyState.openf = true ∧ legalPhase .stop busyState.phase = true
      ∧ readOperands .stop busyState = some .stop ∧ busyState.portIdle = true ∧ busyState.seqPc.toNat + 1 = (prog (.gpxWrite 0x00#8 0xFF#8)).length)
    ∧ (InProgress (.gpxWrite 0x00#8 0xFF#8) .start (within 0x980000FF#32 0 .free (ready []))
      ∧ legalPhase .start .free = true ∧ readOperands .start (ready []) = some .start
      ∧ 0 + 1 < (prog (.gpxWrite 0x00#8 0xFF#8)).length)
    ∧ (InProgress .busBegin .start (within 0x08000000#32 0 .free (fresh [])) ∧ (fresh []).openf = false)
    ∧ (InProgress .busBegin .start (within 0x08000000#32 0 .rxDone (opened [])) ∧ legalPhase .start .rxDone = false)
    ∧ (InProgress .readAck .rdack (within 0x24000000#32 0 .free (opened [])) ∧ legalPhase .rdack .free = true
      ∧ readOperands .rdack (opened []) = none)
    ∧ ({ busyState with portIdle := false } : State).portIdle = false := by decide

theorem witness_HangLastsForEver :
    InProgress (.gpxWrite 0x00#8 0xFF#8) .stop { busyState with portIdle := false }
    ∧ latched { busyState with portIdle := false } = some (.gpxWrite 0x00#8 0xFF#8)
    ∧ busyState.openf = true ∧ legalPhase .stop busyState.phase = true
    ∧ readOperands .stop { busyState with portIdle := false } = some .stop ∧ busyState.sched = [] := by decide

theorem witness_OpenConfiguresTheBus :
    Idle (fresh []) ∧ (fresh []).phase = .free ∧ divisorOf (fresh []).cfg 0x7F#8 = none ∧ divisorOf (fresh []).cfg 0x02#8 = some 39
    ∧ ({ opened [] with phase := .rxDone } : State).phase ≠ .free := by decide

theorem witness_BusPrimitivesAreAcceptedUnchecked :
    Instr.opcode (.sendAddress 0x7F#7 .read) ∈ engineOpcodes ∧ Instr.opcode (.sendAddress 0x7F#7 .read) ≠ .busOpen
    ∧ Idle (fresh []) := by decide

/-- The one entry of a bus primitive's list in progress: on a closed bus, on an open one out of place, and in place. -/
theorem witness_BeginSignalsStart :
    (InProgress .busBegin .start (within 0x08000000#32 0 .free (fresh [])) ∧ (fresh []).openf = false)
    ∧ (InProgress .busBegin .start (within 0x08000000#32 0 .rxDone (opened [])) ∧ (opened []).openf = true)
    ∧ (InProgress .busBegin .start (within 0x08000000#32 0 .free (opened [])) ∧ (opened []).portIdle = true) := by decide

theorem witness_RepeatBeginSignalsRestart :
    (InProgress .busRepeatBegin .restart (within 0x0C000000#32 0 .tx (fresh [])) ∧ (fresh []).openf = false)
    ∧ InProgress .busRepeatBegin .restart (within 0x0C000000#32 0 .rxReady (opened []))
    ∧ (InProgress .busRepeatBegin .restart (within 0x0C000000#32 0 .tx (opened []))
      ∧ InProgress .busRepeatBegin .restart (within 0x0C000000#32 0 .rxDone (opened [])) ∧ (opened []).portIdle = true) := by decide

theorem witness_EndSignalsStop :
    (InProgress .busEnd .stop (within 0x10000000#32 0 .tx (fresh [])) ∧ (fresh []).openf = false)
    ∧ InProgress .busEnd .stop (within 0x10000000#32 0 .rxNeedAck (opened []))
    ∧ (InProgress .busEnd .stop (within 0x10000000#32 0 .tx (opened []))
      ∧ InProgress .busEnd .stop (within 0x10000000#32 0 .rxDone (opened [])) ∧ (opened []).portIdle = true) := by decide

theorem witness_SendAddressSendsAndLatches :
    InProgress (.sendAddress 0x7F#7 .write) (.sa (.word 0x7F#7) .write) (within 0x1400007F#32 0 .started (fresh []))
    ∧ InProgress (.sendAddress 0x7F#7 .write) (.sa (.word 0x7F#7) .write) (within 0x1400007F#32 0 .tx (opened []))
    ∧ (InProgress (.sendAddress 0x00#7 .read) (.sa (.word 0x00#7) .read) (within 0x14000100#32 0 .started (opened [nack]))
      ∧ (opened [nack]).openf = true ∧ (opened [nack]).portIdle = true) := by decide

theorem witness_SendByteSendsAndLatches :
    InProgress (.sendByte 0xFF#8) (.sb (.word 0xFF#8)) (within 0x180000FF#32 0 .tx (fresh []))
    ∧ InProgress (.sendByte 0xFF#8) (.sb (.word 0xFF#8)) (within 0x180000FF#32 0 .rxReady (opened []))
    ∧ (InProgress (.sendByte 0xFF#8) (.sb (.word 0xFF#8)) (within 0x180000FF#32 0 .tx (opened [nack]))
      ∧ (opened [nack]).openf = true ∧ (opened [nack]).portIdle = true) := by decide

theorem witness_ReceiveByteReturnsTheByte :
    InProgress .receiveByte (.rcv .rsp) (within 0x1C000000#32 0 .rxReady (fresh []))
    ∧ InProgress .receiveByte (.rcv .rsp) (within 0x1C000000#32 0 .rxDone (opened []))
    ∧ (InProgress .receiveByte (.rcv .rsp) (within 0x1C000000#32 0 .rxReady (opened [ackd 0x37#8]))
      ∧ (opened [ackd 0x37#8]).openf = true ∧ (opened [ackd 0x37#8]).portIdle = true) := by decide

theorem witness_SendAckDrivesTheSlot :
    InProgress (.sendAck 1#1) (.ack 1#1) (within 0x20000001#32 0 .rxNeedAck (fresh []))
    ∧ InProgress (.sendAck 1#1) (.ack 1#1) (within 0x20000001#32 0 .rxReady (opened []))
    ∧ (InProgress (.sendAck 0#1) (.ack 0#1) (within 0x20000000#32 0 .rxNeedAck (opened []))
      ∧ (opened []).openf = true ∧ (opened []).portIdle = true) := by decide

theorem witness_ReadAckReturnsTheLatch :
    InProgress .readAck .rdack (within 0x24000000#32 0 .free (fresh []))
    ∧ InProgress .readAck .rdack (within 0x24000000#32 0 .rxNeedAck (opened []))
    ∧ (InProgress .readAck .rdack (within 0x24000000#32 0 .free (opened [])) ∧ (opened []).ackl = none)
    ∧ (InProgress .readAck .rdack (within 0x24000000#32 0 .rxDone { opened [] with ackl := some 1#1 })
      ∧ (opened []).openf = true ∧ (opened []).portIdle = true) := by decide

theorem witness_InitCommandsSetTheirAddress : Idle (fresh []) := by decide

theorem witness_CacheGetReturnsTheEntry :
    Idle (ready []) ∧ cacheAt (ready []) (BitVec.toFin 0#3) = some 0xD6#8 ∧ cacheAt (ready []) (BitVec.toFin 7#3) = none := by decide

theorem witness_CachePutWritesOneEntry : Idle (ready []) ∧ (0 : Fin 8) ≠ BitVec.toFin 7#3 := by decide

theorem witness_DriverCommandsNeedTheirRegisters :
    (Idle (fresh []) ∧ addressRegister (Instr.opcode (.ee17Read 0x1FFFF#17)) = some State.ee17Sa ∧ (fresh []).ee17Sa = none)
    ∧ (addressRegister (Instr.opcode .rtcSetClock) = some State.rtcSa ∧ (fresh []).rtcSa = none)
    ∧ (Idle { ready [] with rtcc := (ready []).rtcc.set 6 none } ∧ (6 : Fin 8).val < 7
      ∧ cacheAt { ready [] with rtcc := (ready []).rtcc.set 6 none } 6 = none) := by
  refine ⟨⟨by decide, rfl, rfl⟩, ⟨rfl, rfl⟩, by decide⟩

theorem witness_Ee17ReadRunsToItsEnd :
    Ready (ready []) ∧ (ready []).ee17Sa = some 0x51#7 ∧ 0x55#7 = withBank 0x51#7 (bank17 0x1FFFF#17) := by decide

theorem witness_Ee17WriteRunsToItsEnd :
    Ready (ready []) ∧ (ready []).ee17Sa = some 0x51#7 ∧ 0x51#7 = withBank 0x51#7 (bank17 0x0FFFF#17) := by decide

theorem witness_WriteBusyPollsReturnTheAcknowledge :
    Ready (ready [nack]) ∧ (ready [nack]).ee17Sa = some 0x51#7 ∧ (ready [nack]).ee12Sa = some 0x53#7 := by decide

theorem witness_Ee12ReadRunsToItsEnd : Ready (ready []) ∧ (ready []).ee12Sa = some 0x53#7 := by decide

theorem witness_Ee12WriteRunsToItsEnd : Ready (ready [nack]) ∧ (ready [nack]).ee12Sa = some 0x53#7 := by decide

theorem witness_RegisterReadsRunToTheirEnd :
    Ready (ready []) ∧ (ready []).rtcSa = some 0x68#7 ∧ (ready []).gpxSa = some 0x27#7 := by decide

theorem witness_RegisterWritesRunToTheirEnd :
    Ready (ready [nack]) ∧ (ready [nack]).rtcSa = some 0x68#7 ∧ (ready [nack]).gpxSa = some 0x27#7 := by decide

theorem witness_GetClockPullsAllEightEntries : Ready (ready []) ∧ (ready []).rtcSa = some 0x68#7 := by decide

theorem witness_StopClockSetsTheHaltBit : Ready (ready [ackd 0x56#8]) ∧ (ready [ackd 0x56#8]).rtcSa = some 0x68#7 := by decide

theorem witness_StartClockClearsTheHaltBit : Ready (ready [ackd 0xD6#8]) ∧ (ready [ackd 0xD6#8]).rtcSa = some 0x68#7 := by decide

/-- The bytes cached in `ready`. -/
def cached (i : Fin 8) : Byte := [0xD6#8, 0x34#8, 0x12#8, 0x03#8, 0x15#8, 0x11#8, 0x26#8].getD i.val 0#8

theorem witness_SetClockPushesSevenEntries :
    Ready (ready []) ∧ (ready []).rtcSa = some 0x68#7 ∧ ∀ i : Fin 8, i.val < 7 → cacheAt (ready []) i = some (cached i) := by decide

theorem witness_Ee17AddressBytesFollowTheOffset :
    Ready (ready []) ∧ (ready []).ee17Sa = some ((ready []).cfg.famEE ++ 0#1 ++ 0b01#2) := by decide

theorem witness_PollingLoopEndsAtTheFirstAcknowledge :
    Ready { ready [nack, ackd 0#8] with sched := (List.replicate 2 (presentAndRun 0x4C000000#32 4)).flatten ++ [] }
    ∧ (ready [nack, ackd 0#8]).ee17Sa = some 0x51#7 ∧ (0 ≤ 1 ∧ 1 ≤ 1)
    ∧ AcksAfter 1 { ready [nack, ackd 0#8] with sched := (List.replicate 2 (presentAndRun 0x4C000000#32 4)).flatten ++ [] } := by
  refine ⟨by decide, rfl, by decide, fun k hk => ?_, rfl⟩
  obtain rfl : k = 0 := by omega
  rfl

theorem witness_ReadsOfAnAbsentDeviceComplete :
    Instr.opcode (.ee17Read 0x1FFFF#17) ∈ [Opcode.ee17Read, .ee12Read, .rtcRead, .gpxRead] ∧ Ready (ready (List.replicate 9 nack))
    ∧ addressRegister (Instr.opcode (.ee17Read 0x1FFFF#17)) = some State.ee17Sa
    ∧ State.ee17Sa (ready (List.replicate 9 nack)) = some 0x51#7
    ∧ DeviceAbsent (prog (.ee17Read 0x1FFFF#17)).length (ready (List.replicate 9 nack)) := by
  refine ⟨by decide, by decide, rfl, rfl, ?_⟩
  show ∀ k, k < 9 → (answerAt (ready (List.replicate 9 nack)) k).ack = 1#1
  decide

/-- The clause of the register reads. -/
theorem witness_ReadsOfAnAbsentDeviceComplete_registers :
    Instr.opcode (.gpxRead 0xFF#8) ∈ [Opcode.rtcRead, .gpxRead] ∧ Ready (ready (List.replicate 8 nack))
    ∧ addressRegister (Instr.opcode (.gpxRead 0xFF#8)) = some State.gpxSa
    ∧ State.gpxSa (ready (List.replicate 8 nack)) = some 0x27#7
    ∧ DeviceAbsent (prog (.gpxRead 0xFF#8)).length (ready (List.replicate 8 nack)) := by
  refine ⟨by decide, by decide, rfl, rfl, ?_⟩
  show ∀ k, k < 8 → (answerAt (ready (List.replicate 8 nack)) k).ack = 1#1
  decide

/-- A command in progress meets the invariant of the registers and steps. -/
theorem witness_EveryStepKeepsTheRegisterInvariant :
    RegInv busyState ∧ look (fun t => t.busy) (step busyState) = some false :=
  ⟨⟨by decide, by decide, by decide, by decide, by decide, by decide, by decide, by decide, by decide⟩, by decide⟩

theorem witness_RegisterInvariantRulesOutStops : RegInv busyState ∧ RegInv (opened []) :=
  ⟨⟨by decide, by decide, by decide, by decide, by decide, by decide, by decide, by decide, by decide⟩,
   ⟨by decide, by decide, by decide, by decide, by decide, by decide, by decide, by decide, by decide⟩⟩

/-- A transaction in progress: an address byte sent, the next data byte pending. -/
def midTransaction (answers : List Answer) : State :=
  { within 0x980000FF#32 2 .tx (ready answers) with trace := [.start, .tx 0x4E#8 0#1], ackl := some 0#1, sclO := 0#1 }

theorem witness_EveryStepKeepsTheBusInvariant :
    BusInv (midTransaction [ackd 0#8]) ∧ look (fun t => t.trace.length) (step (midTransaction [ackd 0#8])) = some 3 :=
  ⟨⟨by decide, by decide, by decide, by decide, by decide⟩, by decide⟩

theorem witness_AnswersNeverChangeTheCourse :
    course (midTransaction [ackd 0#8]) = course (midTransaction [nack, nack]) ∧ midTransaction [ackd 0#8] ≠ midTransaction [nack, nack]
    ∧ look (fun t => t.ackl) (step (midTransaction [ackd 0#8])) = some (some 0#1) := by
  refine ⟨rfl, fun h => ?_, by decide⟩
  exact absurd (congrArg State.answers h) (by decide)

theorem witness_RegistersChangeOnlyByTheirWriters :
    look (fun t => (t.openf, t.ee17Sa, t.ee12Sa, t.rtcSa, t.gpxSa, t.seqTmp, t.rsp))
        (exec (.gpxWrite 0x00#8 0xFF#8) (midTransaction [nack]))
      = some (true, some 0x51#7, some 0x53#7, some 0x68#7, some 0x27#7, none, none)
    ∧ (Instr.opcode (.gpxWrite 0x00#8 0xFF#8) ∉ receivingOpcodes ∧ (midTransaction [nack]).busy = true)
    ∧ (Instr.opcode (.rtcCachePut 7#3 0xFF#8) ∈ localOpcodes ∧ Instr.opcode (.rtcCachePut 7#3 0xFF#8) ≠ .busOpen)
    ∧ look (fun t => t.trace) (exec (.rtcCachePut 7#3 0xFF#8) (ready [])) = some [] := by decide

/-- The clauses of `ACKL`, the answers, the fault registers and the lines. -/
theorem witness_RegistersChangeOnlyByTheirWriters_flags :
    (Instr.opcode .receiveByte ∉ sendingOpcodes
      ∧ look (fun t => t.ackl) (exec .receiveByte (within 0x1C000000#32 0 .rxReady (opened []))) = some none)
    ∧ (Instr.opcode .busBegin ∉ sendingOpcodes ∧ Instr.opcode .busBegin ∉ receivingOpcodes)
    ∧ look (fun t => (t.fault, t.faultInfo)) (exec .busBegin (within 0x08000000#32 0 .free (fresh [])))
      = some (.notOpen, some 0x08000000#32)
    ∧ look (fun t => (t.phase, t.sclO, t.sdaO))
        (exec .readAck (within 0x24000000#32 0 .started { opened [] with ackl := some 1#1, sclO := 0#1, sdaO := 0#1 }))
      = some (.started, 0#1, 0#1) := by decide

theorem witness_Ee17PhysicalAddressIsKept :
    look (fun t => t.ee17Sa) (exec (.ee17Read 0x1FFFF#17) (ready [])) = some (some 0x55#7)
    ∧ Instr.opcode (.ee17Read 0x1FFFF#17) ≠ .ee17Init := by decide

theorem witness_CompletedSequencerCommandsReleaseTheBus :
    Instr.opcode (.gpxWrite 0x00#8 0xFF#8) ∉ engineOpcodes ∧ busyState.fault = .noFault ∧ busyState.busy = true
    ∧ look (fun t => t.busy) (exec (.gpxWrite 0x00#8 0xFF#8) busyState) = some false := by decide

theorem witness_OnlyResetTakesBack :
    look (fun t => t.busy) (step busyState) = some false ∧ busyState.sched.head? ≠ some .reset ∧ busyState.openf = true
    ∧ busyState.div.isSome = true
    ∧ (({ busyState with fault := .config } : State).fault ≠ .noFault
      ∧ look (fun t => t.fault) (step { busyState with fault := .config }) = some .config) := by decide

theorem witness_WaveformsRunToTheirLevels :
    (List.replicate 64 (⟨1#1, 0#1⟩ : LineIn)).length = (waveform (.tx 0x80#8 0#1)).length
    ∧ ∀ l ∈ List.replicate 64 (⟨1#1, 0#1⟩ : LineIn), l.scl = 1#1 := by decide

/-- A waveform run to its end; and one about to start, with all its actions to come. -/
theorem witness_SampledBitsAreTheByte :
    runPins (List.replicate 9 ⟨1#1, 0#1⟩) (waveform .restart) ⟨⟨0#1, 1#1⟩, []⟩ = (⟨⟨0#1, 0#1⟩, []⟩, [])
    ∧ runPins (List.replicate 64 ⟨1#1, 0#1⟩) (waveform (.tx 0x80#8 0#1)) ⟨⟨0#1, 1#1⟩, []⟩ = (⟨⟨0#1, 1#1⟩, [0#1]⟩, [])
    ∧ receiving.wave = waveform (.rx 0x37#8) ∧ receiving.sampled = [] ∧ receiving.block.trace.getLast? = some (.rx 0x37#8)
    ∧ receiving.block.portIdle = false ∧ 0 ≤ (waveform (.rx 0x37#8)).length := by decide

theorem witness_HeldClockStopsTheWaveform :
    WireEvent.rx 0x00#8 ≠ .start ∧ (∀ l ∈ List.replicate 4 (⟨0#1, 1#1⟩ : LineIn), l.scl = 0#1)
    ∧ 4 ≤ (List.replicate 4 (⟨0#1, 1#1⟩ : LineIn)).length := by decide

/-- `GPX_WRITE` at its last entry, the waveform of the byte before it not over. -/
def stretched : PinState := ⟨{ busyState with portIdle := false }, ⟨1#1, 1#1⟩, [.rise, .sample, .delay, .scl 0#1, .delay], []⟩

theorem witness_HeldClockStopsTheWaveform_hang :
    (∀ m ∈ [PinMove.block, .port 0#1], m = .block ∨ m = .port 0#1) ∧ .rise ∈ stretched.wave ∧ stretched.block.portIdle = false
    ∧ InProgress (.gpxWrite 0x00#8 0xFF#8) .stop stretched.block ∧ latched stretched.block = some (.gpxWrite 0x00#8 0xFF#8)
    ∧ stretched.block.openf = true ∧ legalPhase .stop stretched.block.phase = true
    ∧ readOperands .stop stretched.block = some .stop := by decide

end Sys2Proof.Tests
end

section
/-! Proofs about the parameters of the block (00_scope.md R6). -/

namespace Sys2Proof.Proofs

open Sys2Proof.Machine

/-- A bit of `CH_MASK`, for the claims about the bytes a stop and a start write back (42_rtc.md R186, R187). -/
theorem getLsbD_chMask (c : Config) (j : Fin 8) : (chMask c).getLsbD j.val = decide (j = c.chBit) := by
  have hmask : chMask c = BitVec.twoPow 8 c.chBit.val := rfl
  simp [hmask, Fin.ext_iff]

/-- Settles O43: each clause reads one bit of the mask. -/
theorem haltMaskTouchesOneBit : Obligations.HaltMaskTouchesOneBit := by
  intro c t j
  refine ⟨?mask, ?stop, ?start⟩
  case mask => rw [getLsbD_chMask, decide_eq_true_iff]
  case stop => rw [BitVec.getLsbD_or, getLsbD_chMask]
  case start => rw [BitVec.getLsbD_and, BitVec.getLsbD_not, getLsbD_chMask, decide_eq_true j.isLt, Bool.true_and]

end Sys2Proof.Proofs
end

section
/-! Decoding the word of a command, for every proof that follows a latched command (30_encoding.md R90 to R92). -/

namespace Sys2Proof.Proofs

open Sys2Proof.Laws

/-- The laws of the encoding, gathered over all commands. -/
theorem encode_wordShape (i : Instr) : WordShape.Statement i := by
  cases i
  exacts [WordShape.busOpen _, WordShape.busBegin, WordShape.busRepeatBegin, WordShape.busEnd, WordShape.sendAddress _ _,
    WordShape.sendByte _, WordShape.receiveByte, WordShape.sendAck _, WordShape.readAck, WordShape.ee17Init _,
    WordShape.ee17Read _, WordShape.ee17Write _ _, WordShape.ee17IsWriteBusy, WordShape.ee12Init _, WordShape.ee12Read _,
    WordShape.ee12Write _ _, WordShape.ee12IsWriteBusy, WordShape.rtcInit _, WordShape.rtcRead _, WordShape.rtcWrite _ _,
    WordShape.rtcGetClock, WordShape.rtcSetClock, WordShape.rtcStopClock, WordShape.rtcStartClock, WordShape.rtcCacheGet _,
    WordShape.rtcCachePut _ _, WordShape.gpxInit _, WordShape.gpxRead _, WordShape.gpxWrite _ _]

@[simp] theorem ofBit_bit (m : Mode) : Mode.ofBit m.bit = m := by cases m <;> rfl

/-- Each operand is read back from its own field (30_encoding.md R91). -/
theorem operandsOf_encode (i : Instr) : i.opcode.operandsOf (encode i) = i := by
  cases i <;>
    simp (disch := omega) [encode, Instr.opcode, Opcode.operandsOf, Instr.operandBits, matchBits_eq_fieldAt,
      extractLsb'_or', extractLsb'_fieldAt_self, extractLsb'_fieldAt_disjoint]

theorem decode_encode (i : Instr) : decode (encode i) = .ok i := by
  obtain ⟨hmask, hcode⟩ := encode_wordShape i
  rw [decode, hcode]
  simp [hmask, operandsOf_encode]

end Sys2Proof.Proofs
end

section
/-! What one step can do, as inductive propositions whose cases are the outcomes: the acceptance effects (30_encoding.md R93),
a step of the block for one command (R93, R99), a move of an agent (10_state.md R20). The proofs about all steps are case
analyses of these. -/

namespace Sys2Proof.Proofs

open Sys2Proof.Machine Sys2Proof.Laws Sys2Proof.Claims

/-- The acceptance effects of a command that do not fault: what the accepted command has written. -/
inductive Accepts (s : State) : Instr → State → Prop where
  | nothing (i : Instr) : Accepts s i s
  | opens (rate : Byte) (d : Nat) (hfree : s.phase = .free) (hd : divisorOf s.cfg rate = some d) :
      Accepts s (.busOpen rate) { s with div := some d, openf := true, sclO := 1#1, sdaO := 1#1 }
  | ee17Init (phys : BitVec 2) :
      Accepts s (.ee17Init phys) { s with ee17Sa := some (slaveAddress s.cfg.famEE (bankField 0#1 phys)) }
  | selectsBank (i : Instr) (sa : Addr7) (off : BitVec 17) (hi : i.opcode = .ee17Read ∨ i.opcode = .ee17Write)
      (hsa : s.ee17Sa = some sa) : Accepts s i { s with ee17Sa := some (withBank sa (bank17 off)) }
  | ee12Init (phys : BitVec 3) : Accepts s (.ee12Init phys) { s with ee12Sa := some (slaveAddress s.cfg.famEE phys) }
  | rtcInit (phys : BitVec 3) : Accepts s (.rtcInit phys) { s with rtcSa := some (slaveAddress s.cfg.famRTC phys) }
  | gpxInit (phys : BitVec 3) : Accepts s (.gpxInit phys) { s with gpxSa := some (slaveAddress s.cfg.famGPX phys) }
  | cacheGet (idx : BitVec 3) (v : Byte) (hv : cacheAt s (cacheIndex idx) = some v) :
      Accepts s (.rtcCacheGet idx) { s with rsp := some v }
  | cachePut (idx : BitVec 3) (data : Byte) : Accepts s (.rtcCachePut idx data) (cachePut (cacheIndex idx) data s)

/-- The bank selection of `EE17_READ` and `EE17_WRITE` (41_eeprom.md R161, R162). -/
theorem accepts_of_selectBank {i : Instr} {off : BitVec 17} {s t : State} (hi : i.opcode = .ee17Read ∨ i.opcode = .ee17Write)
    (h : ee17SelectBank off s = .ok t) : Accepts s i t := by
  unfold ee17SelectBank at h
  split at h
  · cases h
  · cases h; exact .selectsBank i _ off hi ‹_›

/-- The acceptance effects, inverted. -/
theorem accepts_of_effects {i : Instr} {s t : State} (h : acceptEffects i s = .ok t) : Accepts s i t := by
  cases i with
  | busOpen rate =>
    simp only [acceptEffects, openEffects] at h
    split at h
    · cases h
    · rename_i hfree
      split at h
      · cases h
      · cases h; exact .opens rate _ (not_not.mp hfree) ‹_›
  | busBegin | busRepeatBegin | busEnd | sendAddress | sendByte | receiveByte | sendAck | readAck => cases h; exact .nothing _
  | ee17Init phys => cases h; exact .ee17Init phys
  | ee17Read => exact accepts_of_selectBank (.inl rfl) h
  | ee17Write => exact accepts_of_selectBank (.inr rfl) h
  | ee12Init phys => cases h; exact .ee12Init phys
  | rtcInit phys => cases h; exact .rtcInit phys
  | gpxInit phys => cases h; exact .gpxInit phys
  | rtcSetClock =>
    simp only [acceptEffects, rtcSetClockEffects] at h
    split at h
    · cases h
    · split at h <;> cases h; exact .nothing _
  | rtcCacheGet idx =>
    simp only [acceptEffects, cacheGetEffects] at h
    split at h <;> cases h; exact .cacheGet idx _ ‹_›
  | rtcCachePut idx data => cases h; exact .cachePut idx data
  | ee17IsWriteBusy | ee12Read | ee12Write | ee12IsWriteBusy | rtcRead | rtcWrite | rtcGetClock | rtcStopClock
  | rtcStartClock | gpxRead | gpxWrite => rw [needAddress_ok h]; exact .nothing _

/-- What one step of the block for the command `i` can do (30_encoding.md R93, R99, 60_exceptions.md R211). -/
inductive BlockDoes (i : Instr) (s : State) : State → Prop where
  /-- a fault stands, or the port is not idle -/
  | stays : BlockDoes i s s
  | faults (c : FaultCode) (hs : s.fault = .noFault) (hc : c ≠ .noFault) : BlockDoes i s (faulted c (encode i) s)
  | completes (t : State) (hs : Idle s) (hi : prog i = []) (ht : Accepts s i t) : BlockDoes i s t
  | latches (t : State) (hs : Idle s) (hi : prog i ≠ []) (ht : Accepts s i t) : BlockDoes i s (latch (encode i) t)
  | performs (u : MicroOp) (p : Primitive) (hs : InProgress i u s) (ho : s.openf = true)
      (hl : legalPhase u s.phase = true) (hp : readOperands u s = some p) (hidle : s.portIdle = true) :
      BlockDoes i s (advance (prog i).length (perform p s))

/-- An acceptance, inverted. -/
theorem blockDoes_accept (i : Instr) {s : State} (hs : Idle s) :
    BlockDoes i s (accept (encode i) (acceptEffects i) (prog i) s) := by
  cases he : acceptEffects i s with
  | error c => rw [accept_error he, raise_first c _ s hs.1]; exact .faults c hs.1 (acceptEffects_error he)
  | ok t =>
    have ht := accepts_of_effects he
    by_cases hi : prog i = []
    · rw [hi, accept_local he]; exact .completes t hs hi ht
    · rw [accept_latches he hi]; exact .latches t hs hi ht

/-- A micro-step, inverted. -/
theorem blockDoes_microOp {i : Instr} {u : MicroOp} {s : State} (hs : InProgress i u s) :
    BlockDoes i s (microOp (encode i) (prog i).length u s) := by
  have raises {c : FaultCode} (hc : c ≠ .noFault) : BlockDoes i s (raise c (encode i) s) := by
    rw [raise_first c _ s hs.1]; exact .faults c hs.1 hc
  obtain ⟨-, h⟩ | ⟨-, -, h⟩ | ⟨-, -, -, h⟩ | ⟨-, -, -, -, h⟩ | ⟨ho, hl, hidle, p, hp, h⟩ :=
    microOp_cases (encode i) (prog i).length u s <;> rw [h]
  · exact raises (by simp)
  · exact raises (by simp)
  · exact raises (by simp)
  · exact .stays
  · exact .performs u p hs ho hl hp hidle

/-- A command's step, inverted. -/
theorem blockDoes_of_exec {i : Instr} {s t : State} (h : exec i s = .next t) : BlockDoes i s t := by
  obtain ⟨-, he⟩ | ⟨hs, he⟩ | ⟨u, hs, he⟩ | ⟨-, -, -, he⟩ := exec_cases i s <;> rw [he] at h <;> cases h
  · exact .stays
  · exact blockDoes_accept i hs
  · exact blockDoes_microOp hs

/-- What one move of an agent can do (10_state.md R20, 30_encoding.md R93, R99). The move is told apart only as far as reset and
`PORT_IDLE` go: presentations and scheduled steps share the other cases. -/
inductive MoveDoes (s : State) : Move → State → Prop where
  | resets : MoveDoes s .reset (resetBlock s)
  | setsPortIdle (level : Bool) : MoveDoes s (.portIdle level) { s with portIdle := level }
  | stays (m : Move) : MoveDoes s m s
  /-- a presented word that is no command, or comes while a command is in progress -/
  | refuses (m : Move) (c : FaultCode) (w : Word) (hs : s.fault = .noFault) (hc : c ≠ .noFault) : MoveDoes s m (faulted c w s)
  /-- a presented or latched command takes its step -/
  | runs (m : Move) (i : Instr) (t : State) (hi : s.busy = true → latched s = some i) (ht : BlockDoes i s t) : MoveDoes s m t

/-- The block stops the model where `BUSY = 1` and no command is latched (30_encoding.md R99, log 14). -/
theorem blockStep_unlatched {s : State} (hf : s.fault = .noFault) (hb : s.busy = true) (hl : latched s = none) :
    blockStep s = .fault .noCommandInProgress := by
  unfold latched at hl
  cases hc : s.seqCmd with
  | none => simp [blockStep, hf, hb, hc]
  | some w =>
    cases hd : decode w with
    | error e => simp [blockStep, hf, hb, hc, hd]
    | ok i => simp [hc, hd, Except.toOption] at hl

/-- A step of the block, inverted. -/
theorem moveDoes_of_blockStep {s t : State} (m : Move) (h : blockStep s = .next t) : MoveDoes s m t := by
  by_cases hf : s.fault = .noFault
  · cases hb : s.busy with
    | false => rw [blockStep_idle hb] at h; cases h; exact .stays m
    | true =>
      cases hl : latched s with
      | none => rw [blockStep_unlatched hf hb hl] at h; cases h
      | some i => rw [blockStep_latched hf hb hl] at h; exact .runs m i t (fun _ => hl) (blockDoes_of_exec h)
  · rw [blockStep_stopped hf] at h; cases h; exact .stays m

/-- The cases of a presentation (30_encoding.md R93), its two faults as one. -/
theorem presentWord_cases (w : Word) (s : State) :
    (s.fault ≠ .noFault ∧ presentWord w s = .next s) ∨
    (s.fault = .noFault ∧ ∃ c, c ≠ .noFault ∧ presentWord w s = .next (faulted c w s)) ∨
    (Idle s ∧ ∃ i, presentWord w s = exec i s) := by
  by_cases hf : s.fault = .noFault
  · cases hb : s.busy with
    | true => exact .inr (.inl ⟨hf, .reentry, nofun, by simp [presentWord, hf, hb, raise_first]⟩)
    | false =>
      cases hd : decode w with
      | error e => exact .inr (.inl ⟨hf, .illegalCmd, nofun, by simp [presentWord, hf, hb, hd, raise_first]⟩)
      | ok i => exact .inr (.inr ⟨⟨hf, hb⟩, i, presentWord_command ⟨hf, hb⟩ hd⟩)
  · exact .inl ⟨hf, by simp [presentWord, hf]⟩

/-- A move, inverted. -/
theorem moveDoes_of_takeMove {m : Move} {s t : State} (h : takeMove m s = .next t) : MoveDoes s m t := by
  cases m with
  | present w =>
    simp only [takeMove] at h
    obtain ⟨-, he⟩ | ⟨hf, c, hc, he⟩ | ⟨hs, i, he⟩ := presentWord_cases w s <;> rw [he] at h
    · cases h; exact .stays _
    · cases h; exact .refuses _ c w hf hc
    · exact .runs _ i t (fun hb => by simp [hs.2] at hb) (blockDoes_of_exec h)
  | block => exact moveDoes_of_blockStep _ h
  | portIdle level => cases h; exact .setsPortIdle level
  | reset => cases h; exact .resets

/-- A step takes the next listed move, or the block's when none is listed (log 4). -/
theorem step_eq_takeMove (s : State) :
    step s = takeMove (s.sched.headD .block) { s with sched := s.sched.tail } := by
  cases hs : s.sched with
  | nil => rw [step_nil hs]; cases s; cases hs; rfl
  | cons m ms => rw [step_cons hs]; rfl

end Sys2Proof.Proofs
end

section
/-! What a micro-operation writes (10_state.md R38, 40_bus_engine.md R124 to R131), and which micro-operations the list of each
command has (30_encoding.md R97). -/

namespace Sys2Proof.Proofs

open Sys2Proof.Machine Sys2Proof.Laws Sys2Proof.Claims

/-- The micro-operation sends a byte: it writes `ACKL` (10_state.md R24). -/
def sends : MicroOp → Bool
  | .sa _ _ | .sb _ => true
  | _ => false

/-- The micro-operation receives a byte: it writes `RXB` (10_state.md R25). -/
def receives : MicroOp → Bool
  | .rcv _ => true
  | _ => false

/-- The micro-operation returns a value: it writes `RSP` (10_state.md R30). -/
def responds (u : MicroOp) : Bool := u == .rcv .rsp || u == .rdack

/-- The micro-operation receives into `SEQ_TMP` (10_state.md R29). -/
def fillsTmp (u : MicroOp) : Bool := u == .rcv .seqTmp

/-- The micro-operation receives into the register cache (10_state.md R36). -/
def fillsCache : MicroOp → Bool
  | .rcv (.cache _) => true
  | _ => false

/-- The registers that acceptance effects set up and no micro-operation writes, with the parameters. -/
structure SameSettings (s t : State) : Prop where
  cfg    : t.cfg = s.cfg
  openf  : t.openf = s.openf
  div    : t.div = s.div
  ee17Sa : t.ee17Sa = s.ee17Sa
  ee12Sa : t.ee12Sa = s.ee12Sa
  rtcSa  : t.rtcSa = s.rtcSa
  gpxSa  : t.gpxSa = s.gpxSa

/-- What the micro-operation `u` leaves unchanged beside the settings and the sequencer's place: a register changes only where
10_state.md R38 names a primitive of its kind as a writer. -/
structure OpFrame (u : MicroOp) (s t : State) : Prop where
  seqCmd    : t.seqCmd = s.seqCmd
  fault     : t.fault = s.fault
  faultInfo : t.faultInfo = s.faultInfo
  portIdle  : t.portIdle = s.portIdle
  sched     : t.sched = s.sched
  ackl      : sends u = false → t.ackl = s.ackl
  rxb       : receives u = false → t.rxb = s.rxb
  answers   : sends u = false → receives u = false → t.draws = s.draws ∧ t.answers = s.answers
  rsp       : responds u = false → t.rsp = s.rsp
  seqTmp    : fillsTmp u = false → t.seqTmp = s.seqTmp
  rtcc      : fillsCache u = false → t.rtcc = s.rtcc
  bus       : u = .rdack → t.phase = s.phase ∧ t.trace = s.trace ∧ t.sclO = s.sclO ∧ t.sdaO = s.sdaO

theorem perform_sameSettings (p : Primitive) (s : State) : SameSettings s (perform p s) := by
  cases p with
  | receive d => cases d <;> exact ⟨rfl, rfl, rfl, rfl, rfl, rfl, rfl⟩
  | _ => exact ⟨rfl, rfl, rfl, rfl, rfl, rfl, rfl⟩

theorem perform_opFrame {u : MicroOp} {p : Primitive} {s : State} (hp : readOperands u s = some p) :
    OpFrame u s (perform p s) := by
  cases u with
  | start | restart | stop | ack =>
    cases hp
    constructor <;> simp [perform]
  | sa | sb | rdack =>
    obtain ⟨v, -, rfl⟩ := Option.map_eq_some_iff.mp hp
    constructor <;> simp [perform, sends, responds]
  | rcv d =>
    cases hp
    cases d <;> constructor <;> simp [perform, writeDest, receives, responds, fillsTmp, fillsCache]

/-- The advance writes neither the settings nor anything else but the sequencer's place. -/
theorem SameSettings.advance {s t : State} (len : Nat) (h : SameSettings s t) : SameSettings s (advance len t) := by
  obtain ⟨⟩ := h
  constructor <;> simpa

theorem OpFrame.advance {u : MicroOp} {s t : State} (len : Nat) (h : OpFrame u s t) : OpFrame u s (advance len t) := by
  obtain ⟨⟩ := h
  constructor <;> simpa

/-! The columns of writers of 10_state.md R38 against the lists: each is a check of the 29 lists, whatever the operands. -/

theorem prog_sends (i : Instr) : (prog i).any sends = sendingOpcodes.contains i.opcode := by
  cases i <;> rfl

theorem prog_receives (i : Instr) : (prog i).any receives = receivingOpcodes.contains i.opcode := by
  cases i <;> rfl

theorem prog_responds (i : Instr) : (prog i).any responds = [Opcode.receiveByte, .readAck, .ee17Read, .ee12Read, .rtcRead,
    .gpxRead, .ee17IsWriteBusy, .ee12IsWriteBusy].contains i.opcode := by
  cases i <;> rfl

theorem prog_fillsTmp (i : Instr) :
    (prog i).any fillsTmp = [Opcode.rtcStopClock, .rtcStartClock, .rtcSetClock].contains i.opcode := by
  cases i <;> rfl

theorem prog_fillsCache (i : Instr) : (prog i).any fillsCache = [Opcode.rtcGetClock].contains i.opcode := by
  cases i <;> rfl

theorem prog_isEmpty (i : Instr) : (prog i).isEmpty = localOpcodes.contains i.opcode := by
  cases i <;> rfl

/-- The local commands are those with an empty list (30_encoding.md R93). -/
theorem prog_eq_nil_iff (i : Instr) : prog i = [] ↔ i.opcode ∈ localOpcodes := by
  rw [← List.isEmpty_iff, prog_isEmpty, List.contains_iff_mem]

/-- Every list of a driver command ends with `END` (10_state.md R43 (e)). -/
theorem prog_endsWithStop (i : Instr) :
    (engineOpcodes.contains i.opcode || (prog i).getLast?.all (· == .stop)) = true := by
  cases i <;> rfl

/-- The last micro-operation of a driver command releases the bus. -/
theorem eq_stop_of_last {i : Instr} {u : MicroOp} (hi : i.opcode ∉ engineOpcodes) (hu : (prog i).getLast? = some u) :
    u = .stop := by
  have key := prog_endsWithStop i
  rw [hu, Bool.or_eq_true, List.contains_iff_mem] at key
  simpa using key.resolve_left hi

/-- A micro-operation of a command that a table of writers does not list is none of its writers. -/
theorem eq_false_of_table {i : Instr} {u : MicroOp} {writes : MicroOp → Bool} {writers : List Opcode}
    (htable : (prog i).any writes = writers.contains i.opcode) (hu : u ∈ prog i) (hi : i.opcode ∉ writers) :
    writes u = false := by
  have hnone : (prog i).any writes = false := by rw [htable]; simpa using hi
  simpa using List.any_eq_false.mp hnone u hu

theorem prog_of_readAck {i : Instr} (h : i.opcode = .readAck) : prog i = [.rdack] := by
  cases i <;> cases h
  rfl

/-- A command in progress executes a micro-operation of its list. -/
theorem mem_prog_of_inProgress {i : Instr} {u : MicroOp} {s : State} (hs : InProgress i u s) : u ∈ prog i :=
  List.mem_of_getElem? hs.2.2

end Sys2Proof.Proofs
end

section
/-! The invariant of the registers (10_state.md R43, 30_encoding.md R98, R99): it holds at reset, every step keeps it, and it
rules out the model's own stops. -/

namespace Sys2Proof.Proofs

open Sys2Proof.Machine Sys2Proof.Laws Sys2Proof.Claims

/-! ### Slave addresses and the divisor -/

theorem slaveAddress_family (family : BitVec 4) (field : BitVec 3) : (slaveAddress family field).extractLsb' 3 4 = family :=
  BitVec.extractLsb'_append_eq_left

/-- Recomputing the bank bit keeps the family code (41_eeprom.md R161). -/
theorem withBank_family (sa : Addr7) (bank : Bit) : (withBank sa bank).extractLsb' 3 4 = sa.extractLsb' 3 4 :=
  BitVec.extractLsb'_append_eq_left

/-- Recomputing the bank bit keeps the physical address (41_eeprom.md R161). -/
theorem withBank_physical (sa : Addr7) (bank : Bit) : (withBank sa bank).extractLsb' 0 2 = sa.extractLsb' 0 2 := by
  rw [withBank, BitVec.extractLsb'_append_eq_of_add_le (by decide), bankField, BitVec.extractLsb'_append_eq_right]

theorem hasFamily_slaveAddress (family : BitVec 4) (field : BitVec 3) :
    hasFamily (some (slaveAddress family field)) family := by
  simp [hasFamily, slaveAddress_family]

theorem hasFamily_withBank {sa : Addr7} {family : BitVec 4} (bank : Bit) (h : hasFamily (some sa) family) :
    hasFamily (some (withBank sa bank)) family := by
  simpa [hasFamily, withBank_family] using h

/-- A divisor of the table fits `DIV` (10_state.md R22, log 9). -/
theorem divisorOf_lt {c : Config} {rate : Byte} {d : Nat} (h : divisorOf c rate = some d) : d < 2 ^ c.divWidth := by
  simpa using (Option.filter_eq_some_iff.mp h).2

/-! ### The sequencer's place -/

theorem pcInList_iff (s : State) :
    pcInList s = true ↔ ∃ i, latched s = some i ∧ s.seqPc.toNat < (prog i).length := by
  simp [pcInList, Option.any_eq_true]

theorem latched_latch (i : Instr) (s : State) : latched (latch (encode i) s) = some i := by
  simp [latched, decode_encode, Except.toOption]

theorem latched_congr {s t : State} (h : t.seqCmd = s.seqCmd) : latched t = latched s := by
  rw [latched, latched, h]

/-- The advance inside a list: the command is complete, or its next place is in the list (30_encoding.md R98 to R100). -/
theorem advance_cases {i : Instr} {s : State} (hpc : s.seqPc.toNat < (prog i).length) :
    (s.seqPc.toNat + 1 = (prog i).length ∧ advance (prog i).length s = completed s) ∨
    (∃ pc : BitVec 6, pc.toNat < (prog i).length ∧ advance (prog i).length s = { s with seqPc := pc }) := by
  have hlen := prog_length_le i
  have hsucc := seqPc_succ s.seqPc (by omega)
  by_cases hlast : s.seqPc.toNat + 1 = (prog i).length
  · exact .inl ⟨hlast, advance_last (hsucc.trans hlast)⟩
  · exact .inr ⟨s.seqPc + 1#6, by omega, advance_next (by omega)⟩

/-! ### The invariant is kept -/

/-- Settles O47: every register that may hold `⊥` does. -/
theorem registersStartInvariant : Obligations.RegistersStartInvariant where
  idlePc _ := rfl
  inProgress := nofun
  owedAck := nofun
  ee17Family := rfl
  ee12Family := rfl
  rtcFamily := rfl
  gpxFamily := rfl
  divFits := rfl
  openHasDiv := nofun

/-- The clauses about the settings are kept where the settings are. -/
theorem regInv_of_sameSettings {s t : State} (h : RegInv s) (hset : SameSettings s t)
    (hidle : t.busy = false → t.seqPc = 0#6) (hprogress : t.busy = true → pcInList t = true)
    (howed : t.phase = .rxNeedAck → t.rxb.isSome = true) : RegInv t where
  idlePc := hidle
  inProgress := hprogress
  owedAck := howed
  ee17Family := by rw [hset.ee17Sa, hset.cfg]; exact h.ee17Family
  ee12Family := by rw [hset.ee12Sa, hset.cfg]; exact h.ee12Family
  rtcFamily := by rw [hset.rtcSa, hset.cfg]; exact h.rtcFamily
  gpxFamily := by rw [hset.gpxSa, hset.cfg]; exact h.gpxFamily
  divFits := by rw [hset.div, hset.cfg]; exact h.divFits
  openHasDiv := by rw [hset.openf, hset.div]; exact h.openHasDiv

/-- Acceptance effects write addresses of their family and divisors that fit. -/
theorem Accepts.regInv {i : Instr} {s t : State} (ht : Accepts s i t) (h : RegInv s) : RegInv t := by
  cases ht with
  | nothing => exact h
  | opens rate d _ hd => exact { h with divFits := by simpa using divisorOf_lt hd, openHasDiv := fun _ => rfl }
  | ee17Init => exact { h with ee17Family := hasFamily_slaveAddress _ _ }
  | selectsBank _ sa off _ hsa => exact { h with ee17Family := hasFamily_withBank _ (hsa ▸ h.ee17Family) }
  | ee12Init => exact { h with ee12Family := hasFamily_slaveAddress _ _ }
  | rtcInit => exact { h with rtcFamily := hasFamily_slaveAddress _ _ }
  | gpxInit => exact { h with gpxFamily := hasFamily_slaveAddress _ _ }
  | cacheGet => exact { h with }
  | cachePut => exact { h with }

/-- A command with a list starts at its first micro-operation. -/
theorem regInv_latch {i : Instr} {s : State} (h : RegInv s) (hi : prog i ≠ []) : RegInv (latch (encode i) s) :=
  { h with
    idlePc := nofun
    inProgress := fun _ => (pcInList_iff _).mpr ⟨i, latched_latch i s, List.length_pos_iff.mpr hi⟩ }

/-- A receive owes an acknowledge and fills `RXB`; after any other legal primitive none is owed (10_state.md R43 (c)). -/
theorem perform_owedAck {u : MicroOp} {p : Primitive} {s : State} (hl : legalPhase u s.phase = true)
    (hp : readOperands u s = some p) (h : (perform p s).phase = .rxNeedAck) : (perform p s).rxb.isSome = true := by
  cases u with
  | start | restart | stop => cases hp; cases h
  | sa x m =>
    obtain ⟨a, -, rfl⟩ := Option.map_eq_some_iff.mp hp
    cases m <;> cases h
  | sb e =>
    obtain ⟨b, -, rfl⟩ := Option.map_eq_some_iff.mp hp
    have hphase : s.phase = .rxNeedAck := h
    simp [hphase, legalPhase] at hl
  | rcv d => cases hp; cases d <;> rfl
  | ack k =>
    cases hp
    have hphase : phaseAfterAck k = .rxNeedAck := h
    unfold phaseAfterAck at hphase
    split at hphase <;> cases hphase
  | rdack =>
    obtain ⟨a, -, rfl⟩ := Option.map_eq_some_iff.mp hp
    have hphase : s.phase = .rxNeedAck := h
    simp [hphase, legalPhase] at hl

theorem perform_place (p : Primitive) (s : State) : (perform p s).seqPc = s.seqPc ∧ (perform p s).busy = s.busy := by
  cases p with
  | receive d => cases d <;> exact ⟨rfl, rfl⟩
  | _ => exact ⟨rfl, rfl⟩

/-- The place of a command in progress is in its list. -/
theorem seqPc_lt_of_inProgress {i : Instr} {u : MicroOp} {s : State} (hs : InProgress i u s) :
    s.seqPc.toNat < (prog i).length :=
  (List.getElem?_eq_some_iff.mp hs.2.2).1

/-- A micro-operation of the latched command. -/
theorem regInv_performs {i : Instr} {u : MicroOp} {p : Primitive} {s : State} (h : RegInv s) (hi : latched s = some i)
    (hs : InProgress i u s) (hl : legalPhase u s.phase = true) (hp : readOperands u s = some p) :
    RegInv (advance (prog i).length (perform p s)) := by
  have hset := (perform_sameSettings p s).advance (prog i).length
  have howed := perform_owedAck hl hp
  obtain ⟨hpc, hbusy⟩ := perform_place p s
  have hlat := (latched_congr (perform_opFrame hp).seqCmd).trans hi
  obtain ⟨-, hadv⟩ | ⟨pc, hlt, hadv⟩ := advance_cases (s := perform p s) (hpc ▸ seqPc_lt_of_inProgress hs) <;>
    rw [hadv] at hset ⊢
  · exact regInv_of_sameSettings h hset (fun _ => rfl) nofun howed
  · refine regInv_of_sameSettings h hset (fun hb => ?_) (fun _ => (pcInList_iff _).mpr ⟨i, hlat, hlt⟩) howed
    have hidle : s.busy = false := hbusy ▸ hb
    simp [hs.2.1] at hidle

/-- A step of the block for the command in progress, or for one just presented, keeps the invariant. -/
theorem BlockDoes.regInv {i : Instr} {s t : State} (ht : BlockDoes i s t) (hi : s.busy = true → latched s = some i)
    (h : RegInv s) : RegInv t := by
  cases ht with
  | stays => exact h
  | faults => exact { h with }
  | completes _ _ _ ht => exact ht.regInv h
  | latches _ _ hne ht => exact regInv_latch (ht.regInv h) hne
  | performs u p hs _ hl hp => exact regInv_performs h (hi hs.2.1) hs hl hp

theorem MoveDoes.regInv {m : Move} {s t : State} (ht : MoveDoes s m t) (h : RegInv s) : RegInv t := by
  cases ht with
  | resets => exact { registersStartInvariant with }
  | setsPortIdle => exact { h with }
  | stays => exact h
  | refuses => exact { h with }
  | runs _ i _ hi ht => exact ht.regInv hi h

/-- Settles O48, by the cases of the next move. -/
theorem everyStepKeepsTheRegisterInvariant : Obligations.EveryStepKeepsTheRegisterInvariant := by
  intro s t h hst
  rw [step_eq_takeMove] at hst
  exact (moveDoes_of_takeMove hst).regInv { h with }

/-! ### The stops are out of reach -/

/-- Under the invariant the block finds a command and a micro-operation wherever `BUSY = 1` (30_encoding.md R98). -/
theorem blockStep_next {s : State} (h : RegInv s) : ∃ t, blockStep s = .next t := by
  by_cases hf : s.fault = .noFault
  · cases hb : s.busy with
    | false => exact ⟨s, blockStep_idle hb⟩
    | true =>
      obtain ⟨i, hl, hpc⟩ := (pcInList_iff s).mp (h.inProgress hb)
      rw [blockStep_latched hf hb hl]
      exact ⟨_, exec_inProgress ⟨hf, hb, List.getElem?_eq_getElem hpc⟩⟩
  · exact ⟨s, blockStep_stopped hf⟩

/-- A presentation never stops the model (30_encoding.md R93). -/
theorem presentWord_next (w : Word) (s : State) : ∃ t, presentWord w s = .next t := by
  obtain ⟨-, h⟩ | ⟨-, c, -, h⟩ | ⟨hs, i, h⟩ := presentWord_cases w s
  · exact ⟨_, h⟩
  · exact ⟨_, h⟩
  · exact ⟨_, h.trans (exec_idle i hs)⟩

/-- Settles O49: only a step of the block could stop the model. -/
theorem registerInvariantRulesOutStops : Obligations.RegisterInvariantRulesOutStops := by
  intro s h
  rw [step_eq_takeMove]
  cases s.sched.headD .block with
  | present w => exact presentWord_next w _
  | block => exact blockStep_next { h with }
  | portIdle level => exact ⟨_, rfl⟩
  | reset => exact ⟨_, rfl⟩

end Sys2Proof.Proofs
end

section
/-! Who writes each register, and what only reset takes back (10_state.md R21, R22, R37, R38, R43 (e) and (f), R50). -/

namespace Sys2Proof.Proofs

open Sys2Proof.Machine Sys2Proof.Laws Sys2Proof.Claims

/-- Settles O14: a reset step is `resetBlock`. -/
theorem resetLeavesTheResetValues : Obligations.ResetLeavesTheResetValues := by
  intro s ms hs
  have hcache : ∀ i, cacheAt State.reset i = none := by decide
  exact ⟨_, step_cons hs, rfl, rfl, rfl, rfl, rfl, rfl, rfl, rfl, rfl, rfl, rfl, rfl, rfl, rfl, rfl, rfl, rfl, rfl,
    rfl, hcache⟩

/-- Settles O53, by the cases of a command's step. -/
theorem registersChangeOnlyByTheirWriters : Obligations.RegistersChangeOnlyByTheirWriters := by
  intro i s t h
  cases blockDoes_of_exec h with
  | stays => simp
  | faults c hs hc => simp [hs, hc]
  | completes _ hs hi ht =>
    cases ht with
    | selectsBank i sa off hi => obtain h | h := hi <;> simp [h]
    | _ => simp [Instr.opcode]
  | latches t hs hi ht =>
    have hlocal := mt (prog_eq_nil_iff i).mpr hi
    cases ht with
    | selectsBank i sa off hi => obtain h | h := hi <;> simp [h, hs.2, h ▸ hlocal]
    | _ => simp_all [Instr.opcode]
  | performs u p hs _ _ hp =>
    have hset := (perform_sameSettings p s).advance (prog i).length
    have hframe := (perform_opFrame hp).advance (prog i).length
    have hu := mem_prog_of_inProgress hs
    have hlocal : i.opcode ∉ localOpcodes := mt (prog_eq_nil_iff i).mpr (List.ne_nil_of_mem hu)
    have hrdack (h : i.opcode ∈ localOpcodes ∨ i.opcode = .readAck) : u = .rdack := by
      simpa [prog_of_readAck (h.resolve_left hlocal)] using hu
    refine ⟨hset.cfg, hframe.sched, hframe.portIdle, fun _ => ⟨hset.openf, hset.div⟩, ?bus, ?ackl, ?rxb, ?answers,
      fun h => absurd h hlocal, fun _ => hframe.seqCmd, ?seqTmp, ?rsp, .inl ⟨hframe.fault, hframe.faultInfo⟩,
      fun _ => hset.ee17Sa, fun _ => hset.ee12Sa, fun _ => hset.rtcSa, fun _ => hset.gpxSa, ?rtcc, ?lines⟩
    case bus =>
      intro h
      obtain rfl := hrdack h
      obtain ⟨hphase, htrace, -, -⟩ := hframe.bus rfl
      obtain ⟨hdraws, hanswers⟩ := hframe.answers rfl rfl
      exact ⟨hphase, htrace, hanswers, hdraws⟩
    case lines =>
      intro h
      obtain ⟨-, -, hscl, hsda⟩ := hframe.bus (hrdack (h.imp_left And.left))
      exact ⟨hscl, hsda⟩
    case ackl => exact fun h => hframe.ackl (eq_false_of_table (prog_sends i) hu h)
    case rxb => exact fun h => hframe.rxb (eq_false_of_table (prog_receives i) hu h)
    case answers =>
      exact fun h h' =>
        hframe.answers (eq_false_of_table (prog_sends i) hu h) (eq_false_of_table (prog_receives i) hu h')
    case seqTmp => exact fun h => hframe.seqTmp (eq_false_of_table (prog_fillsTmp i) hu h)
    case rsp =>
      exact fun h =>
        hframe.rsp (eq_false_of_table (prog_responds i) hu (mt (List.mem_append_left [Opcode.rtcCacheGet]) h))
    case rtcc =>
      exact fun h =>
        hframe.rtcc (eq_false_of_table (prog_fillsCache i) hu (mt (List.mem_append_left [Opcode.rtcCachePut]) h))

/-- Settles O54: beside `EE17_INIT` only the bank selection of `EE17_READ` and `EE17_WRITE` writes `EE17_SA`, and it keeps
both fields. -/
theorem ee17PhysicalAddressIsKept : Obligations.Ee17PhysicalAddressIsKept := by
  intro i s t h hi
  have accepted {t : State} (ht : Accepts s i t) : t.ee17Sa.map (fun a => (a.extractLsb' 3 4, a.extractLsb' 0 2))
      = s.ee17Sa.map (fun a => (a.extractLsb' 3 4, a.extractLsb' 0 2)) := by
    cases ht with
    | ee17Init => exact absurd rfl hi
    | selectsBank _ sa off _ hsa => simp [hsa, withBank_family, withBank_physical]
    | _ => rfl
  cases blockDoes_of_exec h with
  | stays => rfl
  | faults => rfl
  | completes _ _ _ ht => exact accepted ht
  | latches t _ _ ht => exact accepted (t := t) ht
  | performs u p => rw [advance_ee17Sa, (perform_sameSettings p s).ee17Sa]

/-- A micro-operation that ends its command is the last of the list. -/
theorem getLast?_of_completes {i : Instr} {u : MicroOp} {s : State} (hs : InProgress i u s)
    (hlast : s.seqPc.toNat + 1 = (prog i).length) : (prog i).getLast? = some u := by
  rw [List.getLast?_eq_getElem?, ← hlast]
  exact hs.2.2

/-- Settles O55: the micro-operation that completes the command is the last one, an `END`. -/
theorem completedSequencerCommandsReleaseTheBus : Obligations.CompletedSequencerCommandsReleaseTheBus := by
  intro i s t hi hf hb h ht
  cases blockDoes_of_exec h with
  | stays => cases hb.symm.trans ht
  | faults => cases hb.symm.trans ht
  | completes _ hs => cases hb.symm.trans hs.2
  | latches _ hs => cases hb.symm.trans hs.2
  | performs u p hs _ _ hp =>
    obtain ⟨hpc, hbusy⟩ := perform_place p s
    obtain ⟨hlast, hadv⟩ | ⟨pc, -, hadv⟩ := advance_cases (s := perform p s) (hpc ▸ seqPc_lt_of_inProgress hs) <;>
      rw [hadv] at ht ⊢
    · obtain rfl := eq_stop_of_last hi (getLast?_of_completes hs (hpc ▸ hlast))
      cases hp
      exact ⟨rfl, rfl, rfl, rfl, hf⟩
    · cases hb.symm.trans (hbusy.symm.trans ht)

/-- What no step but a reset takes back. -/
structure Grows (s t : State) : Prop where
  cfg   : t.cfg = s.cfg
  openf : s.openf = true → t.openf = true
  trace : s.trace <+: t.trace
  draws : s.draws ≤ t.draws
  fault : s.fault ≠ .noFault → t.fault = s.fault ∧ t.faultInfo = s.faultInfo
  div   : s.div.isSome = true → t.div.isSome = true

theorem Grows.refl (s : State) : Grows s s := ⟨rfl, id, List.prefix_rfl, le_rfl, fun _ => ⟨rfl, rfl⟩, id⟩

/-- Acceptance effects write `OPENF` and `DIV` only to open the bus. -/
theorem Accepts.grows {i : Instr} {s t : State} (ht : Accepts s i t) : Grows s t := by
  cases ht with
  | opens => exact { Grows.refl s with openf := fun _ => rfl, div := fun _ => rfl }
  | _ => exact { Grows.refl s with }

/-- A primitive adds at most one event and draws at most one answer. -/
theorem perform_grows (p : Primitive) (s : State) : Grows s (perform p s) := by
  cases p with
  | receive d => cases d <;> constructor <;> simp [perform, writeDest]
  | _ => constructor <;> simp [perform]

theorem Grows.advance {s t : State} (len : Nat) (h : Grows s t) : Grows s (advance len t) := by
  obtain ⟨⟩ := h
  constructor <;> simpa

theorem BlockDoes.grows {i : Instr} {s t : State} (ht : BlockDoes i s t) : Grows s t := by
  cases ht with
  | stays => exact .refl s
  | faults c hs => exact { Grows.refl s with fault := fun h => absurd hs h }
  | completes _ _ _ ht => exact ht.grows
  | latches _ _ _ ht => exact { ht.grows with }
  | performs u p => exact (perform_grows p s).advance _

theorem MoveDoes.grows {m : Move} {s t : State} (ht : MoveDoes s m t) (hm : m ≠ .reset) : Grows s t := by
  cases ht with
  | resets => exact absurd rfl hm
  | setsPortIdle => exact { Grows.refl s with }
  | stays => exact .refl s
  | refuses _ c w hs => exact { Grows.refl s with fault := fun h => absurd hs h }
  | runs _ i _ _ ht => exact ht.grows

/-- No move writes the parameters, reset included (log 8). -/
theorem MoveDoes.cfg {m : Move} {s t : State} (ht : MoveDoes s m t) : t.cfg = s.cfg := by
  cases ht with
  | runs _ i _ _ ht => exact ht.grows.cfg
  | _ => rfl

/-- Settles O56, by the cases of the next move. -/
theorem onlyResetTakesBack : Obligations.OnlyResetTakesBack := by
  intro s t h
  rw [step_eq_takeMove] at h
  have ht := moveDoes_of_takeMove h
  refine ⟨ht.cfg, fun hreset => ?_⟩
  have hm : s.sched.headD .block ≠ .reset := by
    cases hs : s.sched <;> simp_all
  obtain ⟨-, hopenf, htrace, hdraws, hfault, hdiv⟩ := ht.grows hm
  exact ⟨hopenf, htrace, hdraws, hfault, hdiv⟩

end Sys2Proof.Proofs
end

section
/-! The read transactions of the drivers: `EE17_READ`, `EE12_READ`, `RTC_READ` and `GPX_READ` run one list (41_eeprom.md R161,
R165, 42_rtc.md R181, 43_gpio_expander.md R201) with different address registers and index bytes. What it does is composed here
from its parts, whatever the answers are. -/

namespace Sys2Proof.Proofs

open Sys2Proof.Machine Sys2Proof.Laws Sys2Proof.Claims

/-! ### The parts of a transaction -/

/-- START and the address+W byte from the register `x`, with which every transaction of a driver begins. -/
def addressOps (x : AddrSrc) : List MicroOp := [.start, .sa x .write]

/-- The bytes of a command word, sent in order. -/
def sendOps (bytes : List Byte) : List MicroOp := bytes.map fun b => .sb (.word b)

/-- RESTART, the address+R byte, one receive into `RSP`, NACK and STOP, with which every read of a driver ends. -/
def receiveOps (x : AddrSrc) : List MicroOp := [.restart, .sa x .read, .rcv .rsp, .ack 1#1, .stop]

/-- The list of a driver's read. -/
def readOps (x : AddrSrc) (bytes : List Byte) : List MicroOp := addressOps x ++ sendOps bytes ++ receiveOps x

/-- The events of bytes sent in order, the first with the acknowledge of draw `k`. -/
def sentEvents (s : State) (k : Nat) : List Byte → List WireEvent
  | [] => []
  | b :: bytes => sent s b k :: sentEvents s (k + 1) bytes

/-- `s` with a transaction under way that has added `events`; its latest byte, sent to a slave in write mode, took draw `k`. -/
abbrev sending (k : Nat) (events : List WireEvent) (s : State) : State :=
  { drawn (k + 1) s with
    phase := .tx, sclO := 0#1, sdaO := 1#1, ackl := some (answerAt s k).ack, trace := s.trace ++ events }

/-- The bus can signal: it is open and its port is idle. -/
abbrev Signals (s : State) : Prop := s.openf = true ∧ s.portIdle = true

/-- An action of a list whose checks pass (40_bus_engine.md R122). -/
theorem runOps_cons {u : MicroOp} {p : Primitive} {s : State} (us : List MicroOp) (hs : Signals s)
    (hl : legalPhase u s.phase = true) (hp : readOperands u s = some p) :
    runOps (u :: us) s = runOps us (perform p s) := by
  obtain ⟨hopen, hidle⟩ := hs
  simp [runOps, stepOp, hopen, hidle, hl, hp]

/-- One more byte sent to the slave. -/
theorem perform_sendByte_sending (k : Nat) (events : List WireEvent) (b : Byte) (s : State) :
    perform (.sendByte b) (sending k events s) = sending (k + 1) (events ++ [sent s b (k + 1)]) s := by
  have hanswer : answerAt (sending k events s) 0 = answerAt s (k + 1) := answerAt_drawn (k + 1) 0 s
  simp [perform, emit_eq, levelsAfter, hanswer, Nat.add_assoc]

theorem runOps_addressOps {x : AddrSrc} {a : Addr7} {s : State} (hs : Signals s) (hfree : s.phase = .free)
    (hx : readAddress x s = some a) : runOps (addressOps x) s = some (sending 0 [.start, addr s a .write 0] s) := by
  have hread : readOperands (.sa x .write) (perform .start s) = some (.sendAddress a .write) := by
    cases x <;> simpa [readOperands, readAddress, perform] using hx
  rw [addressOps, runOps_cons (p := .start) _ hs (by rw [hfree]; rfl) rfl,
    runOps_cons (s := perform .start s) _ hs rfl hread]
  simp [runOps, perform, emit_eq, levelsAfter, phaseAfterAddress, answerAt]

theorem runOps_sendOps (bytes : List Byte) {s : State} (hs : Signals s) (k : Nat) (events : List WireEvent) :
    runOps (sendOps bytes) (sending k events s)
      = some (sending (k + bytes.length) (events ++ sentEvents s (k + 1) bytes) s) := by
  induction bytes generalizing k events with
  | nil => simp [sendOps, runOps, sentEvents]
  | cons b bytes ih =>
    have hcons := runOps_cons (s := sending k events s) (u := .sb (.word b)) (sendOps bytes) hs rfl rfl
    rw [perform_sendByte_sending, ih] at hcons
    simpa [sendOps, sentEvents, Nat.add_assoc, Nat.add_comm 1] using hcons

theorem runOps_receiveOps {x : AddrSrc} {a : Addr7} {s : State} (hs : Signals s) (hx : readAddress x s = some a) (k : Nat)
    (events : List WireEvent) :
    runOps (receiveOps x) (sending k events s)
      = some { drawn (k + 3) s with
          phase := .free, sclO := 1#1, sdaO := 1#1, ackl := some (answerAt s (k + 1)).ack,
          rxb := some (got s (k + 2)), rsp := some (got s (k + 2)),
          trace := s.trace ++ (events ++ readTail s a (k + 1)) } := by
  have hread : readOperands (.sa x .read) (perform .restart (sending k events s)) = some (.sendAddress a .read) := by
    cases x <;> simpa [readOperands, readAddress, perform] using hx
  rw [receiveOps, runOps_cons (s := sending k events s) (p := .restart) _ hs rfl rfl,
    runOps_cons (s := perform .restart (sending k events s)) _ hs rfl hread]
  obtain ⟨hopen, hidle⟩ := hs
  simp [runOps, stepOp, legalPhase, readOperands, perform, emit_eq, levelsAfter, phaseAfterAddress, phaseAfterAck, writeDest,
    got, answerAt, hopen, hidle, Nat.add_assoc]

/-- A driver's read, whatever the answers. -/
theorem runOps_readOps {x : AddrSrc} {a : Addr7} (bytes : List Byte) {s : State} (hs : Signals s) (hfree : s.phase = .free)
    (hx : readAddress x s = some a) :
    runOps (readOps x bytes) s
      = some { drawn (bytes.length + 3) s with
          phase := .free, sclO := 1#1, sdaO := 1#1, ackl := some (answerAt s (bytes.length + 1)).ack,
          rxb := some (got s (bytes.length + 2)), rsp := some (got s (bytes.length + 2)),
          trace := s.trace
            ++ (.start :: addr s a .write 0 :: sentEvents s 1 bytes ++ readTail s a (bytes.length + 1)) } := by
  rw [readOps, runOps_append, runOps_append, runOps_addressOps hs hfree hx, Option.bind_some, runOps_sendOps bytes hs,
    Option.bind_some, runOps_receiveOps hs hx]
  simp

/-! ### The four reads as commands -/

/-- A command with the list of a read, from acceptance to its end. -/
theorem runsTo_of_readOps {i : Instr} {x : AddrSrc} {bytes : List Byte} {a : Addr7} {s s1 : State}
    (hprog : prog i = readOps x bytes) (hready : Ready s) (haccept : acceptEffects i s = .ok s1) (hready1 : Ready s1)
    (hx : readAddress x s1 = some a) :
    RunsTo i s s1
      { transacted (encode i) (bytes.length + 3) (bytes.length + 1)
          (.start :: addr s1 a .write 0 :: sentEvents s1 1 bytes ++ readTail s1 a (bytes.length + 1)) s1 with
        rxb := some (got s1 (bytes.length + 2)), rsp := some (got s1 (bytes.length + 2)) } := by
  obtain ⟨⟨hfault, -⟩, hopen, hfree, hidle⟩ := hready1
  have hne : prog i ≠ [] := by simp [hprog, readOps, addressOps]
  have hops := runOps_readOps bytes ⟨hopen, hidle⟩ hfree hx
  exact run_command (decode_encode i) hready.1 haccept hne hfault (hprog ▸ hops)

theorem needAddress_of_written {x : State → Option Addr7} {a : Addr7} {s : State} (h : x s = some a) :
    needAddress x s = .ok s := by
  simp [needAddress, h]

/-- The four reads have the list of a read, of two offset bytes or one index byte, and their acceptance writes at most the bank
of `EE17_SA` (41_eeprom.md R161, R165, 42_rtc.md R181, 43_gpio_expander.md R201). -/
theorem read_acceptance {i : Instr} {x : State → Option Addr7} {a : Addr7} {s : State}
    (hi : i.opcode ∈ [Opcode.ee17Read, .ee12Read, .rtcRead, .gpxRead]) (hx : addressRegister i.opcode = some x)
    (ha : x s = some a) :
    ∃ src bytes sa a', prog i = readOps src bytes ∧ acceptEffects i s = .ok { s with ee17Sa := sa }
      ∧ readAddress src { s with ee17Sa := sa } = some a'
      ∧ (i.opcode ∈ [Opcode.ee17Read, .ee12Read] → bytes.length = 2)
      ∧ (i.opcode ∈ [Opcode.rtcRead, .gpxRead] → bytes.length = 1) := by
  cases i with
  | ee17Read off =>
    cases hx
    have haccept : acceptEffects (.ee17Read off) s = .ok { s with ee17Sa := some (withBank a (bank17 off)) } := by
      simp [acceptEffects, ee17SelectBank, ha]
    exact ⟨.ee17, [hi17 off, lo17 off], _, _, rfl, haccept, rfl, fun _ => rfl, by simp [Instr.opcode]⟩
  | ee12Read off =>
    cases hx
    exact ⟨.ee12, [hi12 off, lo12 off], s.ee17Sa, a, rfl, needAddress_of_written ha, ha, fun _ => rfl,
      by simp [Instr.opcode]⟩
  | rtcRead reg =>
    cases hx
    exact ⟨.rtc, [reg], s.ee17Sa, a, rfl, needAddress_of_written ha, ha, by simp [Instr.opcode], fun _ => rfl⟩
  | gpxRead reg =>
    cases hx
    exact ⟨.gpx, [reg], s.ee17Sa, a, rfl, needAddress_of_written ha, ha, by simp [Instr.opcode], fun _ => rfl⟩
  | _ => simp [Instr.opcode] at hi

/-- Settles O46: no answer changes the course of a read, so it runs to its end, where the latch holds the acknowledge of the
address+R byte and the two result registers hold the byte of the draw after it. -/
theorem readsOfAnAbsentDeviceComplete : Obligations.ReadsOfAnAbsentDeviceComplete := by
  intro i x a s hi hready hx ha habsent
  obtain ⟨src, bytes, sa, a', hprog, haccept, hread, htwo, hone⟩ := read_acceptance hi hx ha
  obtain ⟨hexec, hrun⟩ := runsTo_of_readOps hprog hready haccept hready hread
  obtain ⟨⟨hfault, -⟩, hopen, -, hidle⟩ := hready
  have hnack : (answerAt s (bytes.length + 1)).ack = 1#1 :=
    habsent _ (by simp [hprog, readOps, addressOps, sendOps, receiveOps])
  refine ⟨_, _, hexec, hrun, ⟨⟨hfault, rfl⟩, hopen, rfl, hidle⟩, congrArg some hnack, rfl, fun h => ?eeprom,
    fun h => ?register⟩
  case eeprom =>
    show some (got s (bytes.length + 2)) = some (got s 4)
    rw [htwo h]
  case register =>
    show some (got s (bytes.length + 2)) = some (got s 3)
    rw [hone h]

end Sys2Proof.Proofs
end

section
/-! The course of a run (30_encoding.md R101, 60_exceptions.md R218): `course` forgets the environment's answers and what is made
from them, and each operation of the block, up to that, does to a state what it does to the state's course. -/

namespace Sys2Proof.Proofs

open Sys2Proof.Machine Sys2Proof.Laws Sys2Proof.Claims

/-! ### What `course` keeps of a register -/

@[simp] theorem blank_some {α : Type} (zero v : α) : blank zero (some v) = some zero := rfl

@[simp] theorem blank_blank {α : Type} (zero : α) (r : Option α) : blank zero (blank zero r) = blank zero r := by
  cases r <;> rfl

@[simp] theorem blank_comp_blank {α : Type} (zero : α) : blank zero ∘ blank zero = blank zero :=
  funext (blank_blank zero)

@[simp] theorem kind_comp_kind : WireEvent.kind ∘ WireEvent.kind = WireEvent.kind := by
  funext e
  cases e <;> rfl

theorem cacheAt_course (s : State) (i : Fin 8) : cacheAt (course s) i = blank 0#8 (cacheAt s i) := by
  simp [cacheAt, course]

@[simp] theorem course_cfg (s : State) : (course s).cfg = s.cfg := rfl
@[simp] theorem course_openf (s : State) : (course s).openf = s.openf := rfl
@[simp] theorem course_phase (s : State) : (course s).phase = s.phase := rfl
@[simp] theorem course_busy (s : State) : (course s).busy = s.busy := rfl
@[simp] theorem course_seqCmd (s : State) : (course s).seqCmd = s.seqCmd := rfl
@[simp] theorem course_seqPc (s : State) : (course s).seqPc = s.seqPc := rfl
@[simp] theorem course_fault (s : State) : (course s).fault = s.fault := rfl
@[simp] theorem course_ee17Sa (s : State) : (course s).ee17Sa = s.ee17Sa := rfl
@[simp] theorem course_rtcSa (s : State) : (course s).rtcSa = s.rtcSa := rfl
@[simp] theorem course_portIdle (s : State) : (course s).portIdle = s.portIdle := rfl
@[simp] theorem course_sched (s : State) : (course s).sched = s.sched := rfl

/-! ### The operations on a state and on its course -/

/-- A primitive without the value it took from a register that `course` forgets. -/
def primitiveKind : Primitive → Primitive
  | .sendByte _ => .sendByte 0#8
  | .readAck _ => .readAck 0#1
  | p => p

/-- Whether an operand register is written does not depend on the answers, nor does the primitive but for its byte or bit. -/
theorem readOperands_course (u : MicroOp) (s : State) :
    (readOperands u (course s)).map primitiveKind = (readOperands u s).map primitiveKind := by
  cases u with
  | sa x m => cases x <;> rfl
  | sb e =>
    cases e with
    | cache i => simp only [readOperands, readByte, cacheAt_course]; cases cacheAt s i <;> rfl
    | tmpHalted | tmpRunning => simp only [readOperands, readByte, course]; cases s.seqTmp <;> rfl
    | _ => rfl
  | rdack => simp only [readOperands, course]; cases s.ackl <;> rfl
  | _ => rfl

@[simp] theorem course_course (s : State) : course (course s) = course s := by
  simp [course]

theorem course_perform (p : Primitive) (s : State) :
    course (perform p s) = course (perform (primitiveKind p) (course s)) := by
  cases p with
  | receive d => cases d <;> simp [perform, primitiveKind, course, emit_eq, levelsAfter, writeDest, cachePut, WireEvent.kind]
  | _ => simp [perform, primitiveKind, course, emit_eq, levelsAfter, WireEvent.kind]

theorem course_raise (c : FaultCode) (w : Word) (s : State) : course (raise c w s) = raise c w (course s) :=
  apply_ite course ..

theorem course_advance (len : Nat) (s : State) : course (advance len s) = advance len (course s) :=
  apply_ite course ..

/-- Two primitives that differ in a byte or a bit of the operands do the same to the course. -/
theorem course_performed {p q : Primitive} (h : primitiveKind q = primitiveKind p) (len : Nat) (s : State) :
    course (advance len (perform p s)) = course (advance len (perform q (course s))) := by
  rw [course_advance, course_advance, course_perform p, course_perform q, course_course, h]

/-- The checks of 40_bus_engine.md R122 come out the same for a state and its course. -/
theorem course_microOp (w : Word) (len : Nat) (u : MicroOp) (s : State) :
    course (microOp w len u s) = course (microOp w len u (course s)) := by
  have hread := readOperands_course u s
  by_cases hopen : s.openf = false
  · simp [microOp, hopen, course_raise]
  by_cases hlegal : legalPhase u s.phase = false
  · simp [microOp, hopen, hlegal, course_raise]
  cases hp : readOperands u s with
  | none =>
    have hq : readOperands u (course s) = none := by simpa [hp] using hread
    simp [microOp, hopen, hlegal, hp, hq, course_raise]
  | some p =>
    obtain ⟨q, hq, hkind⟩ : ∃ q, readOperands u (course s) = some q ∧ primitiveKind q = primitiveKind p := by
      simpa [hp] using hread
    cases hidle : s.portIdle <;> simp [microOp, hopen, hlegal, hp, hq, hidle, course_performed hkind]

/-! ### Acceptance -/

theorem needAddress_course {x : State → Option Addr7} (hx : ∀ s, x (course s) = x s) (s : State) :
    (needAddress x (course s)).map course = (needAddress x s).map course := by
  simp only [needAddress, hx]
  cases x s with
  | none => rfl
  | some a => simp [Except.map]

theorem selectBank_course (off : BitVec 17) (s : State) :
    (ee17SelectBank off (course s)).map course = (ee17SelectBank off s).map course := by
  simp only [ee17SelectBank, course_ee17Sa]
  cases s.ee17Sa with
  | none => rfl
  | some a => simp [Except.map, course]

theorem openEffects_course (rate : Byte) (s : State) :
    (openEffects rate (course s)).map course = (openEffects rate s).map course := by
  by_cases hfree : s.phase = .free
  · cases hd : divisorOf s.cfg rate <;> simp [openEffects, hfree, hd, Except.map, course]
  · simp [openEffects, hfree, Except.map]

theorem pushable_course (s : State) : pushable (course s) = pushable s := by
  simp [pushable, cacheAt_course, blank]

theorem setClockEffects_course (s : State) :
    (rtcSetClockEffects (course s)).map course = (rtcSetClockEffects s).map course := by
  simp only [rtcSetClockEffects, course_rtcSa, pushable_course]
  cases s.rtcSa with
  | none => rfl
  | some a => cases pushable s <;> simp [Except.map]

theorem cacheGetEffects_course (idx : BitVec 3) (s : State) :
    (cacheGetEffects idx (course s)).map course = (cacheGetEffects idx s).map course := by
  simp only [cacheGetEffects, cacheAt_course]
  cases cacheAt s (cacheIndex idx) with
  | none => rfl
  | some v => simp [Except.map, course]

/-- The acceptance effects fault alike, and write the same but for the byte of `RTC_CACHE_GET`. -/
theorem acceptEffects_course (i : Instr) (s : State) :
    (acceptEffects i (course s)).map course = (acceptEffects i s).map course := by
  cases i with
  | busOpen rate => exact openEffects_course rate s
  | busBegin | busRepeatBegin | busEnd | sendAddress | sendByte | receiveByte | sendAck | readAck =>
    exact congrArg Except.ok (course_course s)
  | ee17Init phys => simp [acceptEffects, ee17InitEffects, Except.map, course]
  | ee12Init phys => simp [acceptEffects, ee12InitEffects, Except.map, course]
  | rtcInit phys => simp [acceptEffects, rtcInitEffects, Except.map, course]
  | gpxInit phys => simp [acceptEffects, gpxInitEffects, Except.map, course]
  | ee17Read off => exact selectBank_course off s
  | ee17Write off => exact selectBank_course off s
  | rtcSetClock => exact setClockEffects_course s
  | rtcCacheGet idx => exact cacheGetEffects_course idx s
  | rtcCachePut idx data => simp [acceptEffects, cachePutEffects, cachePut, Except.map, course]
  | ee17IsWriteBusy | ee12Read | ee12Write | ee12IsWriteBusy | rtcRead | rtcWrite | rtcGetClock | rtcStopClock
  | rtcStartClock | gpxRead | gpxWrite => exact needAddress_course (fun _ => rfl) s

theorem course_accept (i : Instr) (s : State) :
    course (accept (encode i) (acceptEffects i) (prog i) s)
      = course (accept (encode i) (acceptEffects i) (prog i) (course s)) := by
  have heffects := acceptEffects_course i s
  cases h : acceptEffects i s <;> cases h' : acceptEffects i (course s) <;> simp [h, h', Except.map] at heffects
  case error.error c c' => rw [accept_error h, accept_error h', heffects, course_raise, course_raise, course_course]
  case ok.ok t t' =>
    by_cases hi : prog i = []
    · rw [hi, accept_local h, accept_local h', heffects]
    · rw [accept_latches h hi, accept_latches h' hi]
      exact congrArg (latch (encode i)) heffects.symm

/-! ### Steps -/

/-- What a step answers, as far as `course` keeps it. -/
def courseOf : Host.Outcome State Fault Refusal → Host.Outcome State Fault Refusal
  | .next s => .next (course s)
  | .fault r => .fault r
  | .refused r => .refused r

theorem courseOf_next {s t : State} (h : course s = course t) : courseOf (.next s) = courseOf (.next t) :=
  congrArg Host.Outcome.next h

theorem courseOf_stays (s : State) : courseOf (.next s) = courseOf (.next (course s)) :=
  courseOf_next (course_course s).symm

theorem courseOf_exec (i : Instr) (s : State) : courseOf (exec i s) = courseOf (exec i (course s)) := by
  obtain ⟨hf, h⟩ | ⟨hs, h⟩ | ⟨u, hs, h⟩ | ⟨hf, hb, hu, h⟩ := exec_cases i s <;> rw [h]
  · rw [exec_stopped i (s := course s) hf]
    exact courseOf_stays s
  · rw [exec_idle i (s := course s) hs]
    exact courseOf_next (course_accept i s)
  · rw [exec_inProgress (s := course s) hs]
    exact courseOf_next (course_microOp ..)
  · simp [exec_eq_command, command, microStep, hf, hb, hu]

theorem courseOf_blockStep (s : State) : courseOf (blockStep s) = courseOf (blockStep (course s)) := by
  by_cases hf : s.fault = .noFault
  · cases hb : s.busy with
    | false =>
      rw [blockStep_idle hb, blockStep_idle (s := course s) hb]
      exact courseOf_stays s
    | true =>
      cases hl : latched s with
      | none => rw [blockStep_unlatched hf hb hl, blockStep_unlatched (s := course s) hf hb hl]
      | some i =>
        rw [blockStep_latched hf hb hl, blockStep_latched (s := course s) hf hb hl]
        exact courseOf_exec i s
  · rw [blockStep_stopped hf, blockStep_stopped (s := course s) hf]
    exact courseOf_stays s

theorem courseOf_presentWord (w : Word) (s : State) :
    courseOf (presentWord w s) = courseOf (presentWord w (course s)) := by
  by_cases hf : s.fault = .noFault
  · cases hb : s.busy with
    | true => simp [presentWord, hf, hb, courseOf, course_raise]
    | false =>
      cases hd : decode w with
      | error e => simp [presentWord, hf, hb, hd, courseOf, course_raise]
      | ok i =>
        rw [presentWord_command ⟨hf, hb⟩ hd, presentWord_command (s := course s) ⟨hf, hb⟩ hd]
        exact courseOf_exec i s
  · simp [presentWord, hf, courseOf]

theorem courseOf_takeMove (m : Move) (s : State) : courseOf (takeMove m s) = courseOf (takeMove m (course s)) := by
  cases m with
  | present w => exact courseOf_presentWord w s
  | block => exact courseOf_blockStep s
  | portIdle level => exact courseOf_stays { s with portIdle := level }
  | reset => rfl

theorem courseOf_step (s : State) : courseOf (step s) = courseOf (step (course s)) := by
  rw [step_eq_takeMove, step_eq_takeMove (course s)]
  exact courseOf_takeMove (s.sched.headD .block) { s with sched := s.sched.tail }

/-- Settles O52: a step and the step of the course have one course, so the step of every state with that course has it. -/
theorem answersNeverChangeTheCourse : Obligations.AnswersNeverChangeTheCourse := by
  intro s s' t hcourse hstep
  have hsame : courseOf (step s') = .next (course t) := by
    rw [courseOf_step, ← hcourse, ← courseOf_step, hstep, courseOf]
  cases hstep' : step s' with
  | next t' => exact ⟨t', rfl, by simpa [hstep', courseOf, eq_comm] using hsame⟩
  | fault r => simp [hstep', courseOf] at hsame
  | refused r => simp [hstep', courseOf] at hsame

end Sys2Proof.Proofs
end

section
/-! The encoding as a bijection between the commands and the legal words (30_encoding.md R90 to R92, R96): a word is the command of
the one row whose test it passes. -/

namespace Sys2Proof.Proofs

open Sys2Proof.Laws Sys2Proof.Claims

/-- Settles O1: each operand is read back from its own field. -/
theorem decodeOfEncodeIsTheCommand : Obligations.DecodeOfEncodeIsTheCommand := decode_encode

/-! ### A word that passes a row's test -/

/-- The opcode bits of a word that passes a row's test are the row's opcode: they are all under the mask. -/
theorem opcodeBits_of_passes {o : Opcode} {w : Word} (h : w &&& o.mask = o.matchBits) : w.extractLsb' 26 6 = o.code := by
  have hmask : o.mask.extractLsb' 26 6 = BitVec.allOnes 6 := by cases o <;> rfl
  calc w.extractLsb' 26 6 = (w &&& o.mask).extractLsb' 26 6 := by rw [BitVec.extractLsb'_and, hmask, BitVec.and_allOnes]
    _ = o.code := by rw [h, matchBits_eq_fieldAt, extractLsb'_fieldAt_self _ _ (by decide)]

/-- 30_encoding.md R92 without the search for the row. -/
theorem decode_eq_ok_iff (w : Word) (i : Instr) :
    decode w = .ok i ↔ ∃ o : Opcode, w &&& o.mask = o.matchBits ∧ o.operandsOf w = i := by
  constructor
  · intro h
    unfold decode at h
    split at h
    · cases h
    · split at h <;> cases h
      exact ⟨_, ‹_›, rfl⟩
  · rintro ⟨o, hpass, rfl⟩
    rw [decode, opcodeBits_of_passes hpass, ofCode_code]
    exact if_pos hpass

@[simp] theorem opcode_operandsOf (o : Opcode) (w : Word) : (o.operandsOf w).opcode = o := by cases o <;> rfl

/-! ### The word of a decoded command -/

/-- A field taken from a word and put back is the word under the field. -/
theorem fieldAt_extractLsb' (w : Word) (lo n : Nat) :
    fieldAt (w.extractLsb' lo n) lo = w &&& fieldAt (BitVec.allOnes n) lo := by
  ext k hk
  simp only [← BitVec.getLsbD_eq_getElem, BitVec.getLsbD_and, getLsbD_fieldAt, BitVec.getLsbD_extractLsb',
    BitVec.getLsbD_allOnes]
  by_cases h : lo ≤ k
  · simp [h, hk, Bool.and_comm]
  · simp [h]

@[simp] theorem bit_ofBit (b : Bit) : (Mode.ofBit b).bit = b := by
  revert b
  decide

/-- The operand bits of the command read from a word are the word's bits outside its row's mask (30_encoding.md R91, R96). -/
theorem operandBits_operandsOf (o : Opcode) (w : Word) : (o.operandsOf w).operandBits = w &&& ~~~o.mask := by
  cases o with
  | busBegin | busRepeatBegin | busEnd | receiveByte | readAck | ee17IsWriteBusy | ee12IsWriteBusy | rtcGetClock | rtcSetClock
  | rtcStopClock | rtcStartClock => exact BitVec.and_zero.symm
  | _ =>
    simp only [Opcode.operandsOf, Instr.operandBits, fieldAt_extractLsb', bit_ofBit, ← BitVec.and_or_distrib_left]
    rfl

/-- Settles O2: under the mask the word is the row's opcode, outside it the operands. -/
theorem encodeOfDecodedIsTheWord : Obligations.EncodeOfDecodedIsTheWord := by
  intro w i h
  obtain ⟨o, hpass, rfl⟩ := (decode_eq_ok_iff w i).mp h
  calc encode (o.operandsOf w) = w &&& o.mask ||| w &&& ~~~o.mask := by
        rw [encode, opcode_operandsOf, operandBits_operandsOf, hpass]
    _ = w := by rw [← BitVec.and_or_distrib_left, BitVec.or_not_self, BitVec.and_allOnes]

/-! ### The opcode map -/

/-- The rows written out from the spec are those of the decoder. -/
theorem mem_opcodeRows_iff (r : Row) : r ∈ opcodeRows ↔ r = (r.1, r.1.matchBits, r.1.mask) := by
  have hcolumns : ∀ r ∈ opcodeRows, r = (r.1, r.1.matchBits, r.1.mask) := by decide
  have hcomplete (o : Opcode) : (o, o.matchBits, o.mask) ∈ opcodeRows := by cases o <;> decide
  exact ⟨hcolumns r, fun h => h ▸ hcomplete r.1⟩

/-- A row's test is the decoder's. -/
theorem passes_iff {r : Row} (hr : r ∈ opcodeRows) (w : Word) : passes w r ↔ w &&& r.1.mask = r.1.matchBits := by
  rw [(mem_opcodeRows_iff r).mp hr]

theorem decode_of_passes {w : Word} {r : Row} (hr : r ∈ opcodeRows) (h : passes w r) : decode w = .ok (r.1.operandsOf w) :=
  (decode_eq_ok_iff w _).mpr ⟨r.1, (passes_iff hr w).mp h, rfl⟩

theorem passes_of_decode {w : Word} {i : Instr} (h : decode w = .ok i) : ∃ r ∈ opcodeRows, r.1 = i.opcode ∧ passes w r := by
  obtain ⟨o, hpass, rfl⟩ := (decode_eq_ok_iff w i).mp h
  exact ⟨(o, o.matchBits, o.mask), (mem_opcodeRows_iff _).mpr rfl, (opcode_operandsOf o w).symm, hpass⟩

/-- The opcode bits of a word fix the row, as no two rows share an opcode. -/
theorem eq_of_passes {w : Word} {r r' : Row} (hr : r ∈ opcodeRows) (hr' : r' ∈ opcodeRows) (h : passes w r)
    (h' : passes w r') : r = r' := by
  have hcode : r.1.code = r'.1.code :=
    (opcodeBits_of_passes ((passes_iff hr w).mp h)).symm.trans (opcodeBits_of_passes ((passes_iff hr' w).mp h'))
  have hopcode : r.1 = r'.1 := Option.some.inj (by rw [← ofCode_code r.1, hcode, ofCode_code])
  rw [(mem_opcodeRows_iff r).mp hr, (mem_opcodeRows_iff r').mp hr', hopcode]

/-- Settles O3, by the rows of the decoder. -/
theorem everyWordIsOneCommandOrIllegal : Obligations.EveryWordIsOneCommandOrIllegal := by
  intro w
  refine ⟨fun r hr h => ⟨_, decode_of_passes hr h, opcode_operandsOf _ w⟩, fun i => passes_of_decode, fun hnone => ?_,
    fun r hr r' hr' => eq_of_passes hr hr'⟩
  cases hd : decode w with
  | error e => exact ⟨e, rfl⟩
  | ok i =>
    obtain ⟨r, hr, -, hpass⟩ := passes_of_decode hd
    exact absurd hpass (hnone r hr)

end Sys2Proof.Proofs
end

section
/-! Presentation and the block's own steps (30_encoding.md R93, R99, 70_reset_and_hazards.md R262): what a presented word does, and
that the schedule only says whose move is next. -/

namespace Sys2Proof.Proofs

open Sys2Proof.Machine Sys2Proof.Laws Sys2Proof.Claims

/-! ### A presented word -/

theorem step_present {s : State} {w : Word} {ms : List Move} (hs : s.sched = .present w :: ms) :
    step s = presentWord w { s with sched := ms } := step_cons hs

/-- Settles O9: a presentation is a move, and `withFetchWord` lists it as the next one. -/
theorem presentedWordRunsItsCommand : Obligations.PresentedWordRunsItsCommand := by
  have presented (s : State) (w : Word) (ms : List Move) (i : Instr) (hs : s.sched = .present w :: ms) (hidle : Idle s)
      (hd : decode w = .ok i) : step s = exec i { s with sched := ms } :=
    (step_present hs).trans (presentWord_command (s := { s with sched := ms }) hidle hd)
  refine ⟨presented, fun s w i hidle hd => ?_⟩
  have hword : (BitVec.ofNat 32 w.toNat).setWidth 32 = w := by simp
  exact presented (s.withFetchWord 32 w.toNat) w s.sched i (by rw [State.withFetchWord, offerWord, hword]) hidle hd

/-- Acceptance effects neither start nor end a command. -/
theorem Accepts.busy {i : Instr} {s t : State} (ht : Accepts s i t) : t.busy = s.busy := by
  cases ht <;> rfl

/-- Settles O12, case by case; the word an accepted command is recorded or latched with is the presented one. -/
theorem acceptanceTakesTheFirstCase : Obligations.AcceptanceTakesTheFirstCase := by
  rintro s s' w ms hs rfl
  rw [step_present hs]
  refine ⟨fun hf => ?stopped, fun hf hb => ?reentry, fun hidle e hd => ?illegal, fun hidle i hd => ?command⟩
  case stopped => simp [presentWord, hf]
  case reentry => simp [presentWord, hf, hb, raise_first]
  case illegal => simp [presentWord, hidle.1, hidle.2, hd, raise_first]
  case command =>
    obtain rfl := encodeOfDecodedIsTheWord w i hd
    rw [presentWord_command (s := { s with sched := ms }) hidle hd, exec_idle i (s := { s with sched := ms }) hidle]
    refine ⟨fun c he => ?faults, fun t he => ⟨fun hlocal => ?completes, fun hlist => ?latches⟩⟩
    case faults => rw [accept_error he, raise_first c _ { s with sched := ms } hidle.1]
    case completes =>
      rw [(prog_eq_nil_iff i).mpr hlocal, accept_local he]
      exact ⟨rfl, (accepts_of_effects he).busy.trans hidle.2⟩
    case latches => rw [accept_latches he (mt (prog_eq_nil_iff i).mp hlist)]

/-! ### The block's own steps -/

/-- Settles O10: the word in `SEQ_CMD` decodes to the latched command. -/
theorem blockStepRunsTheLatchedCommand : Obligations.BlockStepRunsTheLatchedCommand := by
  intro s w i hf hb hcmd hd
  have hl : latched s = some i := by simp [latched, hcmd, hd, Except.toOption]
  exact ⟨fun hs => (step_nil hs).trans (blockStep_latched hf hb hl),
    fun ms hs => (step_cons hs).trans (blockStep_latched (s := { s with sched := ms }) hf hb hl)⟩

/-- The same state with the moves `ms` still to come. -/
def withSched (ms : List Move) (s : State) : State := { s with sched := ms }

theorem readOperands_withSched (u : MicroOp) (ms : List Move) (s : State) :
    readOperands u (withSched ms s) = readOperands u s := by
  cases u with
  | sa x m => cases x <;> rfl
  | sb e => cases e <;> rfl
  | _ => rfl

theorem withSched_perform (p : Primitive) (ms : List Move) (s : State) :
    withSched ms (perform p s) = perform p (withSched ms s) := by
  cases p with
  | receive d => cases d <;> rfl
  | _ => rfl

theorem withSched_advance (len : Nat) (ms : List Move) (s : State) :
    withSched ms (advance len s) = advance len (withSched ms s) :=
  apply_ite (withSched ms) ..

theorem withSched_raise (c : FaultCode) (w : Word) (ms : List Move) (s : State) :
    withSched ms (raise c w s) = raise c w (withSched ms s) :=
  apply_ite (withSched ms) ..

/-- A micro-operation neither reads nor writes the schedule. -/
theorem withSched_microOp (w : Word) (len : Nat) (u : MicroOp) (ms : List Move) (s : State) :
    withSched ms (microOp w len u s) = microOp w len u (withSched ms s) := by
  unfold microOp
  rw [readOperands_withSched]
  cases readOperands u s with
  | none =>
    simp only [apply_ite (withSched ms), withSched_raise]
    rfl
  | some p =>
    simp only [apply_ite (withSched ms), withSched_raise, withSched_advance, withSched_perform]
    rfl

/-- The block's step does not depend on the schedule and leaves it. -/
theorem blockStep_withSched {s t : State} (ms : List Move) (h : blockStep s = .next t) :
    blockStep (withSched ms s) = .next (withSched ms t) := by
  by_cases hf : s.fault = .noFault
  · cases hb : s.busy with
    | false =>
      rw [blockStep_idle hb] at h
      cases h
      exact blockStep_idle hb
    | true =>
      cases hl : latched s with
      | none => rw [blockStep_unlatched hf hb hl] at h; cases h
      | some i =>
        rw [blockStep_latched hf hb hl] at h
        rw [blockStep_latched (s := withSched ms s) hf hb hl]
        obtain ⟨hn, -⟩ | ⟨hi, -⟩ | ⟨u, hu, he⟩ | ⟨-, -, -, he⟩ := exec_cases i s
        · exact absurd hf hn
        · cases hb.symm.trans hi.2
        · rw [he] at h
          cases h
          rw [exec_inProgress (s := withSched ms s) hu, withSched_microOp]
        · rw [he] at h; cases h
  · rw [blockStep_stopped hf] at h
    cases h
    exact blockStep_stopped hf

theorem withSched_self {ms : List Move} {s : State} (h : s.sched = ms) : withSched ms s = s := by
  subst h
  rfl

theorem blockStep_sched {s t : State} (h : blockStep s = .next t) : t.sched = s.sched := by
  have hself := blockStep_withSched s.sched h
  rw [withSched_self rfl, h] at hself
  rw [Host.Outcome.next.inj hself]
  rfl

theorem run_succ {n : Nat} {s t : State} (h : step s = .next t) :
    Host.Core.run Sys2Proof.core (n + 1) s = Host.Core.run Sys2Proof.core n t := by
  have hcore : Sys2Proof.core.step s = .next t := h
  simp only [Host.Core.run, hcore]

/-- With no move listed the machine runs the block (log 4). -/
theorem run_eq_runBlock (n : Nat) {s : State} (hs : s.sched = []) : Host.Core.run Sys2Proof.core n s = runBlock n s := by
  induction n generalizing s with
  | zero => rfl
  | succ n ih =>
    have hstep : Sys2Proof.core.step s = blockStep s := step_nil hs
    cases h : blockStep s with
    | next t => rw [run_succ (hstep.trans h), runBlock_succ h, ih ((blockStep_sched h).trans hs)]
    | fault r =>
      simp only [Host.Core.run, runBlock, hstep, h]
      rfl
    | refused r =>
      simp only [Host.Core.run, runBlock, hstep, h]
      rfl

/-- With the block's moves listed the machine takes them (log 3). -/
theorem run_of_runBlock (n : Nat) {s t : State} {ms : List Move} (hs : s.sched = List.replicate n .block ++ ms)
    (hrun : runBlock n (withSched ms s) = .next t) : Host.Core.run Sys2Proof.core n s = .next t := by
  induction n generalizing s with
  | zero => exact withSched_self hs ▸ hrun
  | succ n ih =>
    cases h : blockStep (withSched ms s) with
    | next u =>
      have hstep : step s = .next (withSched (List.replicate n .block ++ ms) u) :=
        (step_cons hs).trans (blockStep_withSched (s := withSched ms s) _ h)
      have hu : withSched ms u = u := withSched_self (blockStep_sched h)
      rw [runBlock_succ h, ← hu] at hrun
      rw [run_succ hstep]
      exact ih rfl hrun
    | fault r => simp [runBlock, h] at hrun
    | refused r => simp [runBlock, h] at hrun

/-- Settles O11, by induction on the number of steps. -/
theorem blockRunsAreRunsOfTheMachine : Obligations.BlockRunsAreRunsOfTheMachine :=
  ⟨fun n _ hs => run_eq_runBlock n hs, fun n _ _ _ hs hrun => run_of_runBlock n hs hrun⟩

end Sys2Proof.Proofs
end

section
/-! The bytes on the wire (30_encoding.md R103 to R105) and the commands that are accepted without a check of their registers
(R93, R97, R104). -/

namespace Sys2Proof.Proofs

open Sys2Proof.Machine Sys2Proof.Laws Sys2Proof.Claims

/-- Settles O6: the byte is the address appended to the mode. -/
theorem addressByteIsShiftedAddressOrMode : Obligations.AddressByteIsShiftedAddressOrMode := by
  intro a m
  refine ⟨?_, BitVec.extractLsb'_append_eq_left, BitVec.extractLsb'_append_eq_right⟩
  rw [addressByte, BitVec.append_def, BitVec.shiftLeftZeroExtend_eq, BitVec.setWidth'_eq]

/-- Settles O7: adjacent fields of the offset join. -/
theorem offsetBytesCarryTheOffsetOnce : Obligations.OffsetBytesCarryTheOffsetOnce := by
  refine ⟨fun off => ?_, fun off => ?_⟩
  · have hbytes : bank17 off ++ hi17 off = off.extractLsb' 8 9 :=
      BitVec.extractLsb'_append_extractLsb'_eq_extractLsb' rfl
    rw [hbytes]
    exact BitVec.extractLsb'_append_extractLsb'
  · have hbytes : off.extractLsb' 8 4 ++ off.extractLsb' 0 8 = off := BitVec.extractLsb'_append_extractLsb'
    calc hi12 off ++ lo12 off = 0#4 ++ (off.extractLsb' 8 4 ++ off.extractLsb' 0 8) := BitVec.append_assoc
      _ = 0#4 ++ off := by rw [hbytes]

/-- Settles O19: these eight have no acceptance effects and a list of one entry. -/
theorem busPrimitivesAreAcceptedUnchecked : Obligations.BusPrimitivesAreAcceptedUnchecked := by
  intro i s hi hopen hidle
  cases i with
  | busOpen => exact absurd rfl hopen
  | busBegin | busRepeatBegin | busEnd | sendAddress | sendByte | receiveByte | sendAck | readAck =>
    exact ⟨exec_idle _ hidle, rfl⟩
  | _ => simp [engineOpcodes, Instr.opcode] at hi

/-- A local command without a check is complete with its acceptance (30_encoding.md R93). -/
theorem exec_local {i : Instr} {s t : State} (hidle : Idle s) (hi : prog i = []) (he : acceptEffects i s = .ok t) :
    exec i s = .next t := by
  rw [exec_idle i hidle, hi, accept_local he]

/-- Settles O28: the four are local commands whose effects never fault. -/
theorem initCommandsSetTheirAddress : Obligations.InitCommandsSetTheirAddress := by
  intro s hidle
  refine ⟨fun p => ?_, fun p => exec_local hidle rfl rfl, fun p => exec_local hidle rfl rfl,
    fun p => exec_local hidle rfl rfl⟩
  have hfields : s.cfg.famEE ++ 0#1 ++ p = slaveAddress s.cfg.famEE (bankField 0#1 p) := BitVec.append_assoc
  rw [hfields]
  exact exec_local hidle rfl rfl

end Sys2Proof.Proofs
end

section
/-! The invariant of the bus (40_bus_engine.md R132, R133, R140, 10_state.md R24, R25, R39): it holds at reset, and every step
keeps it. A legal primitive records the event that the Transaction grammar allows next, so its phase is the grammar's place. -/

namespace Sys2Proof.Proofs

open Sys2Proof.Machine Sys2Proof.Laws Sys2Proof.Claims

/-- Settles O16: the legality table, row by row. -/
theorem legalPhasesAreThoseOfTheTable : Obligations.LegalPhasesAreThoseOfTheTable := by
  intro p
  refine ⟨?start, ?restart, ?stop, fun x m => ?sa, fun e => ?sb, fun d => ?rcv, fun k => ?ack, ?rdack⟩
  case rdack => exact bne_iff_ne
  case restart | stop => exact Bool.or_eq_true_iff.trans (or_congr beq_iff_eq beq_iff_eq)
  all_goals exact beq_iff_eq

/-! ### One more event -/

theorem grammarPlace_append (trace : List WireEvent) (e : WireEvent) :
    grammarPlace (trace ++ [e]) = (grammarPlace trace).bind fun p => grammarStep p e := by
  simp [grammarPlace]

@[simp] theorem lastAck_append_tx (trace : List WireEvent) (b : Byte) (a : Bit) :
    lastAck (trace ++ [.tx b a]) = some a := by
  simp [lastAck]

/-- Only a sent byte has an acknowledge bit. -/
theorem lastAck_append_other (trace : List WireEvent) {e : WireEvent} (he : ∀ b a, e ≠ .tx b a) :
    lastAck (trace ++ [e]) = lastAck trace := by
  cases e with
  | tx b a => exact absurd rfl (he b a)
  | _ => simp [lastAck]

@[simp] theorem lastReceived_append_rx (trace : List WireEvent) (d : Byte) :
    lastReceived (trace ++ [.rx d]) = some d := by
  simp [lastReceived]

theorem lastReceived_append_other (trace : List WireEvent) {e : WireEvent} (he : ∀ d, e ≠ .rx d) :
    lastReceived (trace ++ [e]) = lastReceived trace := by
  cases e with
  | rx d => exact absurd rfl (he d)
  | _ => simp [lastReceived]

/-- An event leaves the lines at the levels of the place it leads to (40_bus_engine.md R140). -/
theorem levelsAfter_of_grammarStep {p q : Phase} {e : WireEvent} (h : grammarStep p e = some q) :
    levelsAfter e = linesAt q := by
  unfold grammarStep at h
  split at h <;> cases h
  -- the address+mode byte and the master's acknowledge lead to one of two places each
  case h_2 => split <;> rfl
  case h_7 => split <;> rfl
  all_goals rfl

/-- Bit 0 of an address+mode byte is the mode, from which the grammar knows the direction (40_bus_engine.md R132). -/
theorem grammarStep_address (addr : Addr7) (m : Mode) (a : Bit) :
    grammarStep .started (.tx (addressByte addr m) a) = some (phaseAfterAddress m) := by
  have hmode : (addressByte addr m).getLsbD 0 = m.bit.getLsbD 0 := by
    rw [addressByte, BitVec.getLsbD_append]
    rfl
  rw [grammarStep, hmode]
  cases m <;> rfl

/-! ### The invariant is kept -/

/-- Settles O50: the trace is empty and both lines are released. -/
theorem busStartsInvariant : Obligations.BusStartsInvariant where
  grammar := rfl
  ackLatest := rfl
  rxbLatest := rfl
  lines := rfl
  closedFree _ := rfl

/-- A recorded event keeps the invariant if the grammar allows it and leads to the new phase, and the latch and the receive
buffer follow it. -/
theorem busInv_of_records {e : WireEvent} {s t : State} (h : BusInv s) (he : Records e s t) (hopen : t.openf = true)
    (hplace : grammarStep s.phase e = some t.phase) (hack : t.ackl = lastAck (s.trace ++ [e]))
    (hrxb : t.rxb = lastReceived (s.trace ++ [e])) : BusInv t where
  grammar := by rw [he.trace, grammarPlace_append, h.grammar, Option.bind_some, hplace]
  ackLatest := by rw [he.trace, hack]
  rxbLatest := by rw [he.trace, hrxb]
  lines := he.lines.trans (levelsAfter_of_grammarStep hplace)
  closedFree hclosed := by simp [hopen] at hclosed

/-- START, RESTART, STOP and the master's acknowledge leave the latch and the receive buffer. -/
theorem busInv_of_recordsOther {e : WireEvent} {s t : State} (h : BusInv s) (he : Records e s t) (hopen : t.openf = true)
    (hplace : grammarStep s.phase e = some t.phase) (hack : t.ackl = s.ackl) (hrxb : t.rxb = s.rxb)
    (hsent : ∀ b a, e ≠ .tx b a) (hreceived : ∀ d, e ≠ .rx d) : BusInv t :=
  busInv_of_records h he hopen hplace (by rw [hack, h.ackLatest, lastAck_append_other _ hsent])
    (by rw [hrxb, h.rxbLatest, lastReceived_append_other _ hreceived])

/-- A sent byte is latched with its acknowledge and leaves the receive buffer. -/
theorem busInv_of_recordsSent {b : Byte} {a : Bit} {s t : State} (h : BusInv s) (he : Records (.tx b a) s t)
    (hopen : t.openf = true) (hplace : grammarStep s.phase (.tx b a) = some t.phase) (hack : t.ackl = some a)
    (hrxb : t.rxb = s.rxb) : BusInv t :=
  busInv_of_records h he hopen hplace (by rw [hack, lastAck_append_tx])
    (by rw [hrxb, h.rxbLatest, lastReceived_append_other _ (by simp)])

/-- A received byte fills the receive buffer and leaves the latch. -/
theorem busInv_of_recordsReceived {d : Byte} {s t : State} (h : BusInv s) (he : Records (.rx d) s t)
    (hopen : t.openf = true) (hplace : grammarStep s.phase (.rx d) = some t.phase) (hack : t.ackl = s.ackl)
    (hrxb : t.rxb = some d) : BusInv t :=
  busInv_of_records h he hopen hplace (by rw [hack, h.ackLatest, lastAck_append_other _ (by simp)])
    (by rw [hrxb, lastReceived_append_rx])

/-- A primitive that is legal in its phase records the event that the grammar allows there (40_bus_engine.md R122, R132);
`READ_ACK` records none and writes `RSP` only (log 22). -/
theorem busInv_perform {u : MicroOp} {p : Primitive} {s : State} (h : BusInv s) (hopen : s.openf = true)
    (hidle : s.portIdle = true) (hl : legalPhase u s.phase = true) (hp : readOperands u s = some p) :
    BusInv (perform p s) := by
  obtain ⟨hstart, hrestart, hstop, hsa, hsb, hrcv, hsendAck, -⟩ := legalPhasesAreThoseOfTheTable s.phase
  cases u with
  | start =>
    cases hp
    have hplace : grammarStep s.phase .start = some .started := by rw [hstart.mp hl]; rfl
    exact busInv_of_recordsOther h ⟨hidle, rfl, rfl⟩ hopen hplace rfl rfl nofun nofun
  | restart =>
    cases hp
    have hplace : grammarStep s.phase .restart = some .started := by
      obtain hphase | hphase := hrestart.mp hl <;> rw [hphase] <;> rfl
    exact busInv_of_recordsOther h ⟨hidle, rfl, rfl⟩ hopen hplace rfl rfl nofun nofun
  | stop =>
    cases hp
    have hplace : grammarStep s.phase .stop = some .free := by
      obtain hphase | hphase := hstop.mp hl <;> rw [hphase] <;> rfl
    exact busInv_of_recordsOther h ⟨hidle, rfl, rfl⟩ hopen hplace rfl rfl nofun nofun
  | sa x m =>
    obtain ⟨addr, -, rfl⟩ := Option.map_eq_some_iff.mp hp
    have hplace (a : Bit) : grammarStep s.phase (.tx (addressByte addr m) a) = some (phaseAfterAddress m) := by
      rw [(hsa x m).mp hl, grammarStep_address]
    exact busInv_of_recordsSent h ⟨hidle, rfl, rfl⟩ hopen (hplace _) rfl rfl
  | sb e =>
    obtain ⟨b, -, rfl⟩ := Option.map_eq_some_iff.mp hp
    have hplace (a : Bit) : grammarStep s.phase (.tx b a) = some s.phase := by rw [(hsb e).mp hl]; rfl
    exact busInv_of_recordsSent h ⟨hidle, rfl, rfl⟩ hopen (hplace _) rfl rfl
  | rcv d =>
    cases hp
    have hplace (v : Byte) : grammarStep s.phase (.rx v) = some .rxNeedAck := by rw [(hrcv d).mp hl]; rfl
    cases d <;> exact busInv_of_recordsReceived h ⟨hidle, rfl, rfl⟩ hopen (hplace _) rfl rfl
  | ack k =>
    cases hp
    have hplace : grammarStep s.phase (.ma k) = some (phaseAfterAck k) := by rw [(hsendAck k).mp hl]; rfl
    exact busInv_of_recordsOther h ⟨hidle, rfl, rfl⟩ hopen hplace rfl rfl nofun nofun
  | rdack =>
    obtain ⟨a, -, rfl⟩ := Option.map_eq_some_iff.mp hp
    exact { h with }

/-- The advance writes the sequencer's place only. -/
theorem busInv_advance {s : State} (len : Nat) (h : BusInv s) : BusInv (advance len s) := by
  obtain ⟨⟩ := h
  constructor <;> simpa

/-- Of the acceptance effects only those of `OPEN` write the bus, and they write what holds in `PHASE` `FREE`. -/
theorem Accepts.busInv {i : Instr} {s t : State} (ht : Accepts s i t) (h : BusInv s) : BusInv t := by
  cases ht with
  | opens rate d hfree => exact { h with lines := by rw [hfree]; rfl, closedFree := nofun }
  | _ => exact { h with }

theorem BlockDoes.busInv {i : Instr} {s t : State} (ht : BlockDoes i s t) (h : BusInv s) : BusInv t := by
  cases ht with
  | stays => exact h
  | faults => exact { h with }
  | completes _ _ _ ht => exact ht.busInv h
  | latches _ _ _ ht => exact { ht.busInv h with }
  | performs u p _ hopen hl hp hidle => exact busInv_advance _ (busInv_perform h hopen hidle hl hp)

theorem MoveDoes.busInv {m : Move} {s t : State} (ht : MoveDoes s m t) (h : BusInv s) : BusInv t := by
  cases ht with
  | resets => exact { busStartsInvariant with }
  | setsPortIdle => exact { h with }
  | stays => exact h
  | refuses => exact { h with }
  | runs _ _ _ _ ht => exact ht.busInv h

/-- Settles O51, by the cases of the next move. -/
theorem everyStepKeepsTheBusInvariant : Obligations.EveryStepKeepsTheBusInvariant := by
  intro s t h hst
  rw [step_eq_takeMove] at hst
  exact (moveDoes_of_takeMove hst).busInv { h with }

end Sys2Proof.Proofs
end

section
/-! The micro-step (40_bus_engine.md R121, R122, 30_encoding.md R99, R100) and the nine Bus Engine commands (R123 to R131): the
eight primitives are lists of one entry, so a micro-step that passes its checks completes the command. -/

namespace Sys2Proof.Proofs

open Sys2Proof.Machine Sys2Proof.Laws Sys2Proof.Claims

/-! ### A micro-step by its checks -/

section
variable {i : Instr} {u : MicroOp} {s : State} (hs : InProgress i u s)
include hs

theorem exec_faults {c : FaultCode} (hfault : microOp (encode i) (prog i).length u s = raise c (encode i) s) :
    exec i s = .next (faulted c (encode i) s) := by
  rw [exec_inProgress hs, hfault, raise_first _ _ _ hs.1]

theorem exec_closed (hopen : s.openf = false) : exec i s = .next (faulted .notOpen (encode i) s) :=
  exec_faults hs (by simp [microOp, hopen])

theorem exec_illegalPhase (hopen : s.openf = true) (hl : ¬ legalPhase u s.phase = true) :
    exec i s = .next (faulted .protocol (encode i) s) :=
  exec_faults hs (by simp [microOp, hopen, hl])

theorem exec_unwrittenOperand (hopen : s.openf = true) (hl : legalPhase u s.phase = true) (hp : readOperands u s = none) :
    exec i s = .next (faulted .unwritten (encode i) s) :=
  exec_faults hs (by simp [microOp, hopen, hl, hp])

theorem exec_waits {p : Primitive} (hopen : s.openf = true) (hl : legalPhase u s.phase = true)
    (hp : readOperands u s = some p) (hidle : s.portIdle = false) : exec i s = .next s := by
  rw [exec_inProgress hs]
  simp [microOp, hopen, hl, hp, hidle]

theorem exec_performs {p : Primitive} (hopen : s.openf = true) (hl : legalPhase u s.phase = true)
    (hp : readOperands u s = some p) (hidle : s.portIdle = true) :
    exec i s = .next (advance (prog i).length (perform p s)) := by
  rw [exec_inProgress hs, microOp_runs hopen hl hp hidle]

/-- The one micro-operation of a primitive completes its command (30_encoding.md R97, R100). -/
theorem exec_completes {p : Primitive} (hone : (prog i).length = 1) (hopen : s.openf = true)
    (hl : legalPhase u s.phase = true) (hp : readOperands u s = some p) (hidle : s.portIdle = true) :
    exec i s = .next (completed (perform p s)) := by
  have hpc := seqPc_lt_of_inProgress hs
  obtain ⟨hplace, -⟩ := perform_place p s
  have hlast : ((perform p s).seqPc + 1#6).toNat = (prog i).length := by rw [hplace, seqPc_succ _ (by omega)]; omega
  rw [exec_performs hs hopen hl hp hidle, advance_last hlast]

/-- A bus primitive as a command whose operand is at hand: the two faults that are left, the hold, and the action. -/
theorem exec_primitive {p : Primitive} {legal : Prop} (hone : (prog i).length = 1)
    (hlegal : legalPhase u s.phase = true ↔ legal) (hp : readOperands u s = some p) :
    (s.openf = false → exec i s = .next (faulted .notOpen (encode i) s))
    ∧ (s.openf = true → ¬ legal → exec i s = .next (faulted .protocol (encode i) s))
    ∧ (s.openf = true → legal → s.portIdle = false → exec i s = .next s)
    ∧ (s.openf = true → legal → s.portIdle = true → exec i s = .next (completed (perform p s))) :=
  ⟨exec_closed hs, fun hopen hphase => exec_illegalPhase hs hopen (mt hlegal.mp hphase),
    fun hopen hphase => exec_waits hs hopen (hlegal.mpr hphase) hp,
    fun hopen hphase => exec_completes hs hone hopen (hlegal.mpr hphase) hp⟩

end

/-- Settles O15, check by check; the advance counts inside the list. -/
theorem microStepChecksInOrder : Obligations.MicroStepChecksInOrder := by
  intro i u s hs
  refine ⟨exec_closed hs, fun hopen hl => exec_illegalPhase hs hopen (by simp [hl]), exec_unwrittenOperand hs,
    fun p => exec_waits hs, fun p hopen hl hp hidle =>
      ⟨_, exec_performs hs hopen hl hp hidle, ?fault, fun hlast => ?last, fun hmore => ?next⟩⟩
  case fault => rw [advance_fault, perform_fault, hs.1]
  all_goals
    obtain ⟨hplace, hbusy⟩ := perform_place p s
    have hlen := prog_length_le i
    have hsucc : ((perform p s).seqPc + 1#6).toNat = s.seqPc.toNat + 1 := by rw [hplace, seqPc_succ _ (by omega)]
  case last =>
    rw [advance_last (hsucc.trans hlast)]
    exact ⟨rfl, rfl⟩
  case next =>
    rw [advance_next (by omega)]
    exact ⟨hbusy.trans hs.2.1, hsucc⟩

/-! ### The words of the commands with operands -/

theorem fieldAt_zero {n : Nat} (v : BitVec n) : fieldAt v 0 = v.setWidth 32 := BitVec.shiftLeft_zero _

theorem encode_busOpen (rate : Byte) : encode (.busOpen rate) = 0x04000000#32 ||| rate.setWidth 32 := by
  have hcode : Opcode.busOpen.matchBits = 0x04000000#32 := rfl
  rw [encode, Instr.opcode, Instr.operandBits, hcode, fieldAt_zero]

theorem encode_sendByte (b : Byte) : encode (.sendByte b) = 0x18000000#32 ||| b.setWidth 32 := by
  have hcode : Opcode.sendByte.matchBits = 0x18000000#32 := rfl
  rw [encode, Instr.opcode, Instr.operandBits, hcode, fieldAt_zero]

theorem encode_sendAck (k : Bit) : encode (.sendAck k) = 0x20000000#32 ||| k.setWidth 32 := by
  have hcode : Opcode.sendAck.matchBits = 0x20000000#32 := rfl
  rw [encode, Instr.opcode, Instr.operandBits, hcode, fieldAt_zero]

theorem encode_sendAddress (a : Addr7) (m : Mode) :
    encode (.sendAddress a m) = 0x14000000#32 ||| m.bit.setWidth 32 <<< 8 ||| a.setWidth 32 := by
  have hcode : Opcode.sendAddress.matchBits = 0x14000000#32 := rfl
  rw [encode, Instr.opcode, Instr.operandBits, hcode, fieldAt_zero, fieldAt, BitVec.or_assoc]

/-! ### `OPEN` -/

/-- Settles O18: the effects of `OPEN` by its two checks. -/
theorem openConfiguresTheBus : Obligations.OpenConfiguresTheBus := by
  intro rate s hidle
  have faults {c : FaultCode} (he : openEffects rate s = .error c) :
      exec (.busOpen rate) s = .next (faulted c (encode (.busOpen rate)) s) := by
    rw [exec_idle _ hidle, accept_error (effects := acceptEffects (.busOpen rate)) he, raise_first c _ s hidle.1]
  refine ⟨encode_busOpen rate, fun hphase => faults ?protocol, fun hphase hd => faults ?config,
    fun d hphase hd => ⟨divisorOf_lt hd, exec_local hidle rfl ?opens⟩⟩
  case protocol => simp [openEffects, hphase]
  case config => simp [openEffects, hphase, hd]
  case opens => simp [acceptEffects, openEffects, hphase, hd]

/-! ### The eight primitives -/

/-- Settles O20: `BEGIN` is legal in `FREE` only. -/
theorem beginSignalsStart : Obligations.BeginSignalsStart := by
  intro s hs
  obtain ⟨hlegal, -⟩ := legalPhasesAreThoseOfTheTable s.phase
  exact ⟨rfl, exec_primitive hs rfl hlegal rfl⟩

/-- Settles O21: `REPEAT_BEGIN` is legal in `TX` and in `RX_DONE`. -/
theorem repeatBeginSignalsRestart : Obligations.RepeatBeginSignalsRestart := by
  intro s hs
  obtain ⟨-, hlegal, -⟩ := legalPhasesAreThoseOfTheTable s.phase
  obtain ⟨hclosed, hprotocol, hwaits, hcompletes⟩ := exec_primitive hs rfl hlegal rfl
  exact ⟨rfl, hclosed, fun hopen htx hdone => hprotocol hopen (not_or.mpr ⟨htx, hdone⟩), hwaits, hcompletes⟩

/-- Settles O22: `END` is legal where `REPEAT_BEGIN` is. -/
theorem endSignalsStop : Obligations.EndSignalsStop := by
  intro s hs
  obtain ⟨-, -, hlegal, -⟩ := legalPhasesAreThoseOfTheTable s.phase
  obtain ⟨hclosed, hprotocol, hwaits, hcompletes⟩ := exec_primitive hs rfl hlegal rfl
  exact ⟨rfl, hclosed, fun hopen htx hdone => hprotocol hopen (not_or.mpr ⟨htx, hdone⟩), hwaits, hcompletes⟩

/-- Settles O23: the address is in the command word, so `SEND_ADDRESS` reads no register. -/
theorem sendAddressSendsAndLatches : Obligations.SendAddressSendsAndLatches := by
  intro a m s hs
  obtain ⟨-, -, -, hlegal, -⟩ := legalPhasesAreThoseOfTheTable s.phase
  exact ⟨encode_sendAddress a m, exec_primitive hs rfl (hlegal _ _) rfl⟩

/-- Settles O24: the byte is in the command word; the phase `SEND_BYTE` keeps is `TX`, the only legal one. -/
theorem sendByteSendsAndLatches : Obligations.SendByteSendsAndLatches := by
  intro b s hs
  obtain ⟨-, -, -, -, hlegal, -⟩ := legalPhasesAreThoseOfTheTable s.phase
  obtain ⟨hclosed, hprotocol, hwaits, hcompletes⟩ := exec_primitive hs rfl (hlegal _) rfl
  exact ⟨encode_sendByte b, hclosed, hprotocol, hwaits, fun hopen hphase hidle => hphase ▸ hcompletes hopen hphase hidle⟩

/-- Settles O25: `RECEIVE_BYTE` receives into `RSP`. -/
theorem receiveByteReturnsTheByte : Obligations.ReceiveByteReturnsTheByte := by
  intro s hs
  obtain ⟨-, -, -, -, -, hlegal, -⟩ := legalPhasesAreThoseOfTheTable s.phase
  exact ⟨rfl, exec_primitive hs rfl (hlegal _) rfl⟩

/-- Settles O26: the bit is in the command word. -/
theorem sendAckDrivesTheSlot : Obligations.SendAckDrivesTheSlot := by
  intro k s hs
  obtain ⟨-, -, -, -, -, -, hlegal, -⟩ := legalPhasesAreThoseOfTheTable s.phase
  exact ⟨encode_sendAck k, exec_primitive hs rfl (hlegal _) rfl⟩

/-- Settles O27: `READ_ACK` alone has an operand register, `ACKL`. -/
theorem readAckReturnsTheLatch : Obligations.ReadAckReturnsTheLatch := by
  intro s hs
  obtain ⟨-, -, -, -, -, -, -, hlegal⟩ := legalPhasesAreThoseOfTheTable s.phase
  have latch {r : Option Bit} (ha : s.ackl = r) : readOperands .rdack s = r.map .readAck :=
    congrArg (Option.map Primitive.readAck) ha
  refine ⟨rfl, exec_closed hs, fun hopen hphase => ?protocol, fun hopen hphase ha => ?unwritten,
    fun a hopen hphase ha => ?waits, fun a hopen hphase ha => ?completes⟩
  case protocol => exact exec_illegalPhase hs hopen fun hl => hlegal.mp hl hphase
  case unwritten => exact exec_unwrittenOperand hs hopen (hlegal.mpr hphase) (latch ha)
  case waits => exact exec_waits hs hopen (hlegal.mpr hphase) (latch ha)
  case completes => exact exec_completes hs rfl hopen (hlegal.mpr hphase) (latch ha)

end Sys2Proof.Proofs
end

section
/-! Waveforms against the lines (40_bus_engine.md R140 to R146): what a run does with the clock never held and with the clock
held, and where a waveform changes the data line. -/

namespace Sys2Proof.Proofs

open Sys2Proof.Machine Sys2Proof.Laws Sys2Proof.Claims

/-! ### The clock never held -/

@[simp] theorem settle_cons (a : PinAction) (acts : List PinAction) (l : Levels) :
    settle (a :: acts) l = settle acts (a.drive l) := rfl

theorem sampledAt_sample (acts : List PinAction) (line : LineIn) (lines : List LineIn) :
    sampledAt (.sample :: acts) (line :: lines) = line.sda :: sampledAt acts lines := rfl

theorem sampledAt_other {a : PinAction} (ha : a ≠ .sample) (acts : List PinAction) (line : LineIn) (lines : List LineIn) :
    sampledAt (a :: acts) (line :: lines) = sampledAt acts lines := by
  simp [sampledAt, ha]

/-- With the clock never held every action takes one step. -/
theorem runPins_clockHigh {acts : List PinAction} {lines : List LineIn} (hlen : lines.length = acts.length)
    (hhigh : ∀ l ∈ lines, l.scl = 1#1) (p : PinRun) :
    runPins lines acts p = (⟨settle acts p.levels, p.sampled ++ sampledAt acts lines⟩, []) := by
  induction acts generalizing lines p with
  | nil => simp [settle, sampledAt]
  | cons a acts ih =>
    cases lines with
    | nil => cases hlen
    | cons line lines =>
      have hrest := ih (Nat.succ.inj hlen) (List.forall_mem_cons.mp hhigh).2
      cases a with
      | sample => simp [hrest, sampledAt_sample, PinAction.drive]
      | rise => simp [runPins_rise, (List.forall_mem_cons.mp hhigh).1, hrest, sampledAt_other, PinAction.drive]
      | _ => simp [hrest, sampledAt_other, PinAction.drive]

/-- Settles O57: the levels at the end of a waveform do not depend on those at its start. -/
theorem waveformsRunToTheirLevels : Obligations.WaveformsRunToTheirLevels := by
  intro e lines p hlen hhigh
  rw [runPins_clockHigh hlen hhigh, settle_waveform]

/-! ### The data line under the clock -/

/-- A written bit changes the data line under the low clock, and returns there (40_bus_engine.md R144). -/
theorem dataStable_writeBit (v sda : Bit) (acts : List PinAction) :
    dataStable (writeBit v ++ acts) ⟨0#1, sda⟩ = dataStable acts ⟨0#1, v⟩ := rfl

/-- So does a read bit, which releases the data line. -/
theorem dataStable_readBit (sda : Bit) (acts : List PinAction) :
    dataStable (readBit ++ acts) ⟨0#1, sda⟩ = dataStable acts ⟨0#1, 1#1⟩ := rfl

theorem dataStable_writeBits (bits : List Bit) {acts : List PinAction}
    (hacts : ∀ sda, dataStable acts ⟨0#1, sda⟩ = true) (sda : Bit) :
    dataStable (bits.flatMap writeBit ++ acts) ⟨0#1, sda⟩ = true := by
  induction bits generalizing sda with
  | nil => exact hacts sda
  | cons v bits ih => rw [List.flatMap_cons, List.append_assoc, dataStable_writeBit, ih]

theorem dataStable_readBits (n : Nat) (sda : Bit) : dataStable (List.replicate n readBit).flatten ⟨0#1, sda⟩ = true := by
  induction n generalizing sda with
  | zero => rfl
  | succ n ih => rw [List.replicate_succ, List.flatten_cons, dataStable_readBit, ih]

/-- Settles O60: the byte events are made of written and read bits, and START, RESTART and STOP change the data line right after
a rise of the clock. -/
theorem dataChangesOnlyUnderLowClock : Obligations.DataChangesOnlyUnderLowClock :=
  ⟨fun sda b _ => dataStable_writeBits (msbFirst b) (dataStable_readBits 1) sda, fun _ _ => dataStable_readBits 8 1#1,
    fun _ _ => rfl, rfl, fun _ => rfl, fun _ => rfl⟩

/-! ### The clock held -/

/-- A `rise` waits as long as the clock is held. -/
theorem runPins_riseHeld {lines : List LineIn} (hlow : ∀ l ∈ lines, l.scl = 0#1) (acts : List PinAction) (p : PinRun) :
    runPins lines (.rise :: acts) p = (p, .rise :: acts) := by
  induction lines with
  | nil => rfl
  | cons line lines ih =>
    obtain ⟨hline, hlines⟩ := List.forall_mem_cons.mp hlow
    simp [runPins_rise, hline, ih hlines]

theorem beforeRise_cons {a : PinAction} (ha : a ≠ .rise) (acts : List PinAction) :
    beforeRise (a :: acts) = a :: beforeRise acts := List.takeWhile_cons_of_pos (by simpa)

theorem fromRise_cons {a : PinAction} (ha : a ≠ .rise) (acts : List PinAction) :
    fromRise (a :: acts) = fromRise acts := List.dropWhile_cons_of_pos (by simpa)

/-- With the clock held, a run executes the actions before the first `rise`, and none from it on. -/
theorem runPins_clockHeld {acts : List PinAction} {lines : List LineIn} (hlow : ∀ l ∈ lines, l.scl = 0#1)
    (hsample : .sample ∉ beforeRise acts) (hlen : (beforeRise acts).length ≤ lines.length) (p : PinRun) :
    runPins lines acts p = (⟨settle (beforeRise acts) p.levels, p.sampled⟩, fromRise acts) := by
  induction acts generalizing lines p with
  | nil => simp [settle]
  | cons a acts ih =>
    by_cases ha : a = .rise
    · subst ha
      simp [runPins_riseHeld hlow, settle]
    · rw [beforeRise_cons ha] at hsample hlen
      rw [beforeRise_cons ha, fromRise_cons ha, settle_cons]
      cases lines with
      | nil => cases hlen
      | cons line lines =>
        have hrest := ih (List.forall_mem_cons.mp hlow).2 (List.not_mem_of_not_mem_cons hsample)
          (Nat.le_of_succ_le_succ hlen)
        cases a with
        | rise => exact absurd rfl ha
        | sample => exact absurd List.mem_cons_self hsample
        | sda | scl | delay => exact hrest _

/-- Before its first `rise` a waveform sets the data line, once or twice, and releases the clock (40_bus_engine.md R142 to
R145); START has no `rise` (R141). -/
theorem beforeRise_waveform {e : WireEvent} (he : e ≠ .start) :
    ∃ levels : List Bit, levels.length ≤ 2 ∧ beforeRise (waveform e) = levels.map .sda ++ [.delay, .scl 1#1] := by
  cases e with
  | start => exact absurd rfl he
  | restart => exact ⟨[1#1], by simp, rfl⟩
  | stop => exact ⟨[0#1], by simp, rfl⟩
  | tx b a => exact ⟨[b.extractLsb' 7 1], by simp, rfl⟩
  | rx d => exact ⟨[1#1, 1#1], by simp, rfl⟩
  | ma k => exact ⟨[k], by simp, rfl⟩

theorem fromRise_waveform {e : WireEvent} (he : e ≠ .start) : (fromRise (waveform e)).head? = some .rise := by
  cases e with
  | start => exact absurd rfl he
  | _ => rfl

/-- A held clock stops the waveform at its first `rise`, with the clock released. -/
theorem waveform_clockHeld {e : WireEvent} {lines : List LineIn} (he : e ≠ .start) (hlow : ∀ l ∈ lines, l.scl = 0#1)
    (hlen : 4 ≤ lines.length) (p : PinRun) :
    runPins lines (waveform e) p = (⟨settle (beforeRise (waveform e)) p.levels, p.sampled⟩, fromRise (waveform e))
    ∧ (settle (beforeRise (waveform e)) p.levels).scl = 1#1 := by
  obtain ⟨levels, hlevels, hbefore⟩ := beforeRise_waveform he
  refine ⟨runPins_clockHeld hlow ?nothingSampled ?longEnough p, ?released⟩
  case nothingSampled => simp [hbefore]
  case longEnough => simp only [hbefore, List.length_append, List.length_map, List.length_cons, List.length_nil]; omega
  case released => simp [hbefore, settle, PinAction.drive]

end Sys2Proof.Proofs
end

section
/-! The bits of a waveform (40_bus_engine.md R145, 20_memory.md R64): the byte they make, and the answer they are. -/

namespace Sys2Proof.Proofs

open Sys2Proof.Machine Sys2Proof.Laws Sys2Proof.Claims

/-! ### A byte and its bits -/

/-- The byte after one more bit, the step of `byteOfBits`. -/
def shiftIn (acc : Byte) (v : Bit) : Byte := acc <<< 1 ||| v.setWidth 8

theorem byteOfBits_eq_foldl (bits : List Bit) : byteOfBits bits = bits.foldl shiftIn 0#8 := rfl

/-- The bit shifted in is bit 0. -/
theorem extractLsb'_shiftIn_zero (acc : Byte) (v : Bit) : (shiftIn acc v).extractLsb' 0 1 = v := by
  ext k hk
  obtain rfl : k = 0 := by omega
  simp [shiftIn]

/-- Every other bit moves up by one. -/
theorem extractLsb'_shiftIn_succ (acc : Byte) (v : Bit) {j : Nat} (hj : j < 7) :
    (shiftIn acc v).extractLsb' (j + 1) 1 = acc.extractLsb' j 1 := by
  ext k hk
  obtain rfl : k = 0 := by omega
  simpa [shiftIn] using fun _ => Nat.succ_lt_succ hj

/-- Shifting in bit `j` of a byte after the bits above it. -/
theorem shiftIn_bit (b : Byte) (j : Nat) : shiftIn (b >>> (j + 1)) (b.extractLsb' j 1) = b >>> j := by
  ext k hk
  cases k with
  | zero => simp [shiftIn]
  | succ k =>
    have hbit : j + 1 + k = j + (k + 1) := by omega
    simp [shiftIn, hbit]

/-- Sampled most significant first, the bits of a byte are the byte. -/
theorem byteOfBits_msbFirst (b : Byte) : byteOfBits (msbFirst b) = b := by
  have hnone : b >>> 8 = 0#8 := BitVec.ushiftRight_eq_zero (by decide)
  calc byteOfBits (msbFirst b) = (msbFirst b).foldl shiftIn (b >>> 8) := by rw [hnone, byteOfBits_eq_foldl]
    _ = b >>> 0 := by simp only [msbFirst, List.foldl_cons, List.foldl_nil, shiftIn_bit]
    _ = b := BitVec.ushiftRight_zero b

/-- Eight bits are those of their byte. -/
theorem msbFirst_byteOfBits {bits : List Bit} (h : bits.length = 8) : msbFirst (byteOfBits bits) = bits := by
  match bits, h with
  | [b7, b6, b5, b4, b3, b2, b1, b0], _ =>
    simp [msbFirst, byteOfBits_eq_foldl, extractLsb'_shiftIn_zero, extractLsb'_shiftIn_succ]

/-- As many bits as the slave drives in an event are those it drives exactly if the event carries the answer they are. -/
theorem eq_slaveBits_iff_carries {e : WireEvent} {bits : List Bit} (h : bits.length = (slaveBits e).length) :
    bits = slaveBits e ↔ carries e (answerOfSamples bits) := by
  cases e with
  | start | restart | stop | ma => exact iff_of_true (List.eq_nil_of_length_eq_zero h) trivial
  | tx b a =>
    match bits, h with
    | [v], _ =>
      have hack : (answerOfSamples [v]).ack = v := extractLsb'_shiftIn_zero 0#8 v
      simp [slaveBits, carries, hack, eq_comm]
  | rx d =>
    constructor
    · rintro rfl
      exact (byteOfBits_msbFirst d).symm
    · intro hd
      rw [slaveBits, show d = byteOfBits bits from hd, msbFirst_byteOfBits h]

/-! ### The bits a run samples -/

theorem samplingPoints_sample (acts : List PinAction) : samplingPoints (.sample :: acts) = samplingPoints acts + 1 :=
  List.countP_cons_of_pos rfl

/-- What a run has sampled and what it has left to sample. -/
theorem runPins_samplingPoints (lines : List LineIn) (acts : List PinAction) (p : PinRun) :
    (runPins lines acts p).1.sampled.length + samplingPoints (runPins lines acts p).2
      = p.sampled.length + samplingPoints acts := by
  induction lines generalizing acts p with
  | nil => rfl
  | cons line lines ih =>
    cases acts with
    | nil => rfl
    | cons a acts =>
      cases a with
      | rise =>
        rw [runPins_rise]
        split
        · exact ih ..
        · exact ih ..
      | sample => rw [runPins_sample, ih, samplingPoints_sample, List.length_append, List.length_singleton]; omega
      | sda | scl | delay => exact ih ..

/-- A run to the end samples one bit for each the slave drives. -/
theorem length_sampled_of_runPins {e : WireEvent} {lines : List LineIn} {l : Levels} {q : PinRun}
    (h : runPins lines (waveform e) ⟨l, []⟩ = (q, [])) : q.sampled.length = (slaveBits e).length := by
  have hpoints := runPins_samplingPoints lines (waveform e) ⟨l, []⟩
  rw [h, samplingPoints_waveform] at hpoints
  simpa [samplingPoints] using hpoints

end Sys2Proof.Proofs
end

section
/-! Runs at pin level (40_bus_engine.md R146, 60_exceptions.md R219): the port's actions one after the other, with the clock never
held and with the clock held. -/

namespace Sys2Proof.Proofs

open Sys2Proof.Machine Sys2Proof.Laws Sys2Proof.Claims

/-! ### The clock never held -/

/-- The clock line is released at every `rise`, from the levels `l` on (40_bus_engine.md R142 to R144). -/
def releasedAtRises : List PinAction → Levels → Bool
  | [], _ => true
  | a :: acts, l => (a != .rise || l.scl == 1#1) && releasedAtRises acts (a.drive l)

theorem releasedAtRises_waveform (e : WireEvent) (l : Levels) : releasedAtRises (waveform e) l = true := by
  cases e <;> rfl

theorem runPinMoves_ports (clock : Bit) (n : Nat) (p : PinState) :
    runPinMoves (List.replicate n (.port clock)) p = .next ((tick clock)^[n] p) := by
  induction n generalizing p with
  | zero => rfl
  | succ n ih => exact ih (tick clock p)

/-- Where the clock is released at every `rise` and nobody holds it, the port executes one action. -/
theorem tick_released {p : PinState} (h : releasedAtRises p.wave p.levels = true) :
    (tick 1#1 p).wave = p.wave.tail
    ∧ (tick 1#1 p).block = { p.block with portIdle := p.wave.tail.isEmpty }
    ∧ releasedAtRises (tick 1#1 p).wave (tick 1#1 p).levels = true := by
  obtain ⟨hw, ht⟩ | ⟨rest, hw, hheld, -⟩ | ⟨rest, hw, ht⟩ | ⟨a, rest, -, hw, ht⟩ := tick_cases 1#1 p <;> rw [hw] at h
  · simp [ht, hw, releasedAtRises]
  · have hscl : p.levels.scl = 1#1 := by simpa [releasedAtRises] using (Bool.and_eq_true_iff.mp h).1
    simp [hscl] at hheld
  · simpa [ht, hw, releasedAtRises, PinAction.drive] using h
  · simp only [releasedAtRises, Bool.and_eq_true] at h
    simp [ht, hw, h.2]

/-- So `n` steps of the port execute the next `n` actions. -/
theorem ticks_released (n : Nat) {p : PinState} (h : releasedAtRises p.wave p.levels = true)
    (hidle : p.block.portIdle = p.wave.isEmpty) :
    ((tick 1#1)^[n] p).wave = p.wave.drop n
    ∧ ((tick 1#1)^[n] p).block = { p.block with portIdle := (p.wave.drop n).isEmpty }
    ∧ releasedAtRises ((tick 1#1)^[n] p).wave ((tick 1#1)^[n] p).levels = true := by
  induction n with
  | zero => exact ⟨rfl, by rw [List.drop_zero, ← hidle]; rfl, h⟩
  | succ n ih =>
    obtain ⟨hwave, hblock, hreleased⟩ := ih
    rw [Function.iterate_succ_apply']
    obtain ⟨hwave', hblock', hreleased'⟩ := tick_released hreleased
    rw [hwave, List.tail_drop] at hwave' hblock'
    exact ⟨hwave', by rw [hblock', hblock], hreleased'⟩

/-- The pin-level state with the levels `l` in `SCL_O` and `SDA_O` of the block, which the port does not read (log 12). -/
def withLines (l : Levels) (p : PinState) : PinState := { p with block := { p.block with sclO := l.scl, sdaO := l.sda } }

theorem tick_withLines (clock : Bit) (l : Levels) (p : PinState) :
    tick clock (withLines l p) = withLines l (tick clock p) := rfl

theorem pinInv_ticks {l : Levels} {p : PinState} (clock : Bit) (n : Nat) (h : PinInv (withLines l p)) :
    PinInv (withLines l ((tick clock)^[n] p)) := by
  induction n with
  | zero => exact h
  | succ n ih => rw [Function.iterate_succ_apply', ← tick_withLines]; exact tick_inv clock ih

/-- With the waveform of the last event still to come the invariant holds, if the lines are taken to be those the event leaves. -/
theorem pinInv_of_eventRecorded {e : WireEvent} {p : PinState} (hwave : p.wave = waveform e) (hsampled : p.sampled = [])
    (htrace : p.block.trace.getLast? = some e) (hidle : p.block.portIdle = false) :
    PinInv (withLines (levelsAfter e) p) where
  idle := by
    simp only [withLines, hidle, hwave]
    cases e <;> rfl
  part := by simp [withLines, hwave, lastWave, htrace]
  drawn := by simp [withLines, hsampled]
  owed := by simp [withLines, hwave, hsampled, lastSlaveBits, htrace, samplingPoints_waveform]
  released := by rw [withLines, hwave, released_waveform]
  lines := by rw [withLines, hwave, settle_waveform]

/-- The waveform of the event just recorded, run to its end, leaves the event's levels and has sampled its bits. -/
theorem ticks_waveform {e : WireEvent} {p : PinState} (hwave : p.wave = waveform e) (hsampled : p.sampled = [])
    (htrace : p.block.trace.getLast? = some e) (hidle : p.block.portIdle = false) :
    ((tick 1#1)^[(waveform e).length] p).levels = levelsAfter e
    ∧ ((tick 1#1)^[(waveform e).length] p).sampled = slaveBits e := by
  have hinv := pinInv_of_eventRecorded hwave hsampled htrace hidle
  have hreleased : releasedAtRises p.wave p.levels = true := by rw [hwave, releasedAtRises_waveform]
  obtain ⟨hover, hblock, -⟩ := ticks_released (waveform e).length hreleased hinv.idle
  rw [hwave, List.drop_length] at hover
  obtain ⟨-, hlevels, hbits⟩ := waveform_over (pinInv_ticks 1#1 _ hinv) hover
  have hlast : lastSlaveBits ((tick 1#1)^[(waveform e).length] p).block = slaveBits e := by
    simp [lastSlaveBits, hblock, htrace]
  exact ⟨hlevels, hbits.trans hlast⟩

/-- Settles O58: the shifts of `byteOfBits` give its clauses about bytes, and the invariant of the pin level its last one. -/
theorem sampledBitsAreTheByte : Obligations.SampledBitsAreTheByte := by
  refine ⟨byteOfBits_msbFirst, fun e => ?points, fun b j => ?wireOrder,
    fun e lines l q hrun => eq_slaveBits_iff_carries (length_sampled_of_runPins hrun),
    fun e p n hwave hsampled htrace hidle hn => ?pins⟩
  case points => rw [← List.countP_eq_length_filter]; exact samplingPoints_waveform e
  case wireOrder => fin_cases j <;> rfl
  case pins =>
    have hreleased : releasedAtRises p.wave p.levels = true := by rw [hwave, releasedAtRises_waveform]
    have hinv := pinInv_of_eventRecorded hwave hsampled htrace hidle
    obtain ⟨hwave', hblock', -⟩ := ticks_released n hreleased hinv.idle
    rw [hwave] at hwave' hblock'
    have hempty : ((waveform e).drop n).isEmpty = decide (n = (waveform e).length) := by
      rw [Bool.eq_iff_iff, List.isEmpty_iff, List.drop_eq_nil_iff, decide_eq_true_iff]
      omega
    refine ⟨_, runPinMoves_ports 1#1 n p, by rw [hblock', hempty], hwave', fun hlen => ?_⟩
    obtain ⟨hlevels, hbits⟩ := ticks_waveform hwave hsampled htrace hidle
    exact hlen ▸ ⟨hlevels, hbits, (eq_slaveBits_iff_carries (congrArg _ hbits)).mp hbits⟩

/-! ### The clock held -/

/-- A `rise` is not met while the clock is held. -/
theorem tick_riseHeld {p : PinState} {rest : List PinAction} (hwave : p.wave = .rise :: rest) :
    tick 0#1 p = { p with block := { p.block with portIdle := false } } := by
  obtain ⟨block, levels, wave, sampled⟩ := p
  subst hwave
  simp [tick, runPins_rise, lineLevels]

/-- While the clock is held, a `rise` that is still to come stays so and keeps the port from being idle. -/
theorem tick_clockHeld {p : PinState} (hrise : .rise ∈ p.wave) (hidle : p.block.portIdle = false) :
    (tick 0#1 p).block = p.block ∧ .rise ∈ (tick 0#1 p).wave := by
  have hblock : { p.block with portIdle := false } = p.block := by rw [← hidle]
  by_cases hnext : ∃ rest, p.wave = .rise :: rest
  · obtain ⟨rest, hwave⟩ := hnext
    rw [tick_riseHeld hwave]
    exact ⟨hblock, hrise⟩
  · have later {a : PinAction} {rest : List PinAction} (hwave : p.wave = a :: rest) : .rise ∈ rest := by
      rw [hwave] at hrise hnext
      exact (List.mem_cons.mp hrise).resolve_left fun ha => hnext ⟨rest, by rw [ha]⟩
    have busy {rest : List PinAction} (h : .rise ∈ rest) : rest.isEmpty = false := by
      simpa using List.ne_nil_of_mem h
    obtain ⟨hwave, -⟩ | ⟨rest, hwave, -⟩ | ⟨rest, hwave, ht⟩ | ⟨a, rest, -, hwave, ht⟩ := tick_cases 0#1 p
    · simp [hwave] at hrise
    · exact absurd ⟨rest, hwave⟩ hnext
    all_goals
      rw [ht, busy (later hwave)]
      exact ⟨hblock, later hwave⟩

/-- The block, waiting for a port that waits for a held clock, changes no register (60_exceptions.md R219). -/
theorem runPinMoves_clockHeld {ms : List PinMove} {p : PinState} (hms : ∀ m ∈ ms, m = .block ∨ m = .port 0#1)
    (hrise : .rise ∈ p.wave) (hidle : p.block.portIdle = false) (hblock : blockStep p.block = .next p.block) :
    ∃ q, runPinMoves ms p = .next q ∧ q.block = p.block ∧ .rise ∈ q.wave := by
  induction ms generalizing p with
  | nil => exact ⟨p, rfl, rfl, hrise⟩
  | cons m ms ih =>
    obtain ⟨hm, hrest⟩ := List.forall_mem_cons.mp hms
    obtain rfl | rfl := hm
    · have hstep : pinStep .block p = .next p := by
        rw [pinStep, hblock, onPins, startWave_of_trace rfl]
      simpa only [runPinMoves, hstep] using ih hrest hrise hidle hblock
    · obtain ⟨hsame, hrise'⟩ := tick_clockHeld hrise hidle
      have hrun := ih (p := tick 0#1 p) hrest hrise' (by rw [hsame, hidle]) (by rw [hsame, hblock])
      rwa [hsame] at hrun

/-- Settles O59: the run stops at the first `rise`, and the block waits for it. -/
theorem heldClockStopsTheWaveform : Obligations.HeldClockStopsTheWaveform := by
  refine ⟨fun e lines p he hlow hlen => ?run, fun ms p i u x hms hrise hidle hs hlatched hopen hl hp => ?block⟩
  case run =>
    obtain ⟨hrun, hscl⟩ := waveform_clockHeld he hlow hlen p
    exact ⟨hrun, hscl, fromRise_waveform he⟩
  case block =>
    have hblock : blockStep p.block = .next p.block :=
      (blockStep_latched hs.1 hs.2.1 hlatched).trans (exec_waits hs hopen hl hp hidle)
    exact runPinMoves_clockHeld hms hrise hidle hblock

end Sys2Proof.Proofs
end

section
/-! The EEPROM-style drivers (41_eeprom.md R160 to R169): the lists of a write and of a write-busy poll composed from the parts of
a transaction, the commands of both variants from acceptance to their end, and the host's polling loop as runs of one poll. -/

namespace Sys2Proof.Proofs

open Sys2Proof.Machine Sys2Proof.Laws Sys2Proof.Claims

/-! ### The address register of the 17-bit variant -/

/-- Settles O8: the recomputed address is `sa[6:3]` over the bank bit over `sa[1:0]`, and each clause reads one of the three. -/
theorem bankBitReplacesOnlyBitTwo : Obligations.BankBitReplacesOnlyBitTwo := by
  intro a b
  refine ⟨?bank, BitVec.extractLsb'_append_eq_left, ?phys⟩
  case bank => exact (BitVec.extractLsb'_append_eq_of_add_le (by decide)).trans BitVec.extractLsb'_append_eq_left
  case phys => exact (BitVec.extractLsb'_append_eq_of_add_le (by decide)).trans BitVec.extractLsb'_append_eq_right

/-- An address of the 17-bit variant with its bank bit recomputed (20_memory.md R61). -/
theorem withBank_append (family : BitVec 4) (old bank : Bit) (phys : BitVec 2) :
    withBank (family ++ old ++ phys) bank = family ++ bank ++ phys := by
  have hfields : family ++ old ++ phys = family ++ (old ++ phys) := BitVec.append_assoc
  have hfamily : (family ++ old ++ phys).extractLsb' 3 4 = family := hfields ▸ BitVec.extractLsb'_append_eq_left
  have hphys : (family ++ old ++ phys).extractLsb' 0 2 = phys := BitVec.extractLsb'_append_eq_right
  have hbank : family ++ bank ++ phys = family ++ (bank ++ phys) := BitVec.append_assoc
  rw [withBank, bankField, hfamily, hphys, hbank]

theorem selectBank_of_written {off : BitVec 17} {a : Addr7} {s : State} (h : s.ee17Sa = some a) :
    ee17SelectBank off s = .ok { s with ee17Sa := some (withBank a (bank17 off)) } := by
  simp [ee17SelectBank, h]

/-! ### Writes and polls -/

/-- The list of a driver's write. -/
def writeOps (x : AddrSrc) (bytes : List Byte) : List MicroOp := addressOps x ++ sendOps bytes ++ [.stop]

/-- The list of a write-busy poll. -/
def pollOps (x : AddrSrc) : List MicroOp := addressOps x ++ [.rdack, .stop]

/-- The acknowledge as a response byte: 0x01 for a missing one (41_eeprom.md R163). -/
theorem bitResponse_eq_ite (a : Bit) : bitResponse a = if a = 1#1 then 0x01#8 else 0x00#8 := by
  revert a
  decide

/-- A driver's write, whatever the answers. -/
theorem runOps_writeOps {x : AddrSrc} {a : Addr7} (bytes : List Byte) {s : State} (hs : Signals s) (hfree : s.phase = .free)
    (hx : readAddress x s = some a) :
    runOps (writeOps x bytes) s
      = some { drawn (bytes.length + 1) s with
          phase := .free, sclO := 1#1, sdaO := 1#1, ackl := some (answerAt s bytes.length).ack,
          trace := s.trace ++ (.start :: addr s a .write 0 :: sentEvents s 1 bytes ++ [.stop]) } := by
  rw [writeOps, runOps_append, runOps_append, runOps_addressOps hs hfree hx, Option.bind_some, runOps_sendOps bytes hs,
    Option.bind_some, runOps_cons (s := sending _ _ s) (p := .stop) _ hs rfl rfl]
  simp [runOps, perform, emit_eq, levelsAfter]

/-- A write-busy poll, whatever the answer. -/
theorem runOps_pollOps {x : AddrSrc} {a : Addr7} {s : State} (hs : Signals s) (hfree : s.phase = .free)
    (hx : readAddress x s = some a) :
    runOps (pollOps x) s
      = some { drawn 1 s with
          phase := .free, sclO := 1#1, sdaO := 1#1, ackl := some (answerAt s 0).ack,
          rsp := some (if (answerAt s 0).ack = 1#1 then 0x01#8 else 0x00#8),
          trace := s.trace ++ [.start, addr s a .write 0, .stop] } := by
  rw [pollOps, runOps_append, runOps_addressOps hs hfree hx, Option.bind_some,
    runOps_cons (s := sending 0 _ s) (p := .readAck (answerAt s 0).ack) _ hs rfl rfl,
    runOps_cons (s := perform (.readAck _) (sending 0 _ s)) (p := .stop) _ hs rfl rfl]
  simp [runOps, perform, emit_eq, levelsAfter, bitResponse_eq_ite]

/-- A command with the list of a write, from acceptance to its end. -/
theorem runsTo_of_writeOps {i : Instr} {x : AddrSrc} {bytes : List Byte} {a : Addr7} {s s1 : State}
    (hprog : prog i = writeOps x bytes) (hready : Ready s) (haccept : acceptEffects i s = .ok s1) (hready1 : Ready s1)
    (hx : readAddress x s1 = some a) :
    RunsTo i s s1
      (transacted (encode i) (bytes.length + 1) bytes.length
        (.start :: addr s1 a .write 0 :: sentEvents s1 1 bytes ++ [.stop]) s1) := by
  obtain ⟨⟨hfault, -⟩, hopen, hfree, hidle⟩ := hready1
  have hne : prog i ≠ [] := by simp [hprog, writeOps, addressOps]
  have hops := runOps_writeOps bytes ⟨hopen, hidle⟩ hfree hx
  exact run_command (decode_encode i) hready.1 haccept hne hfault (hprog ▸ hops)

/-- The state that a write-busy poll with the command word `w` of the slave `a` leaves. -/
def polled (w : Word) (a : Addr7) (s : State) : State :=
  { transacted w 1 0 [.start, addr s a .write 0, .stop] s with
    rsp := some (if (answerAt s 0).ack = 1#1 then 0x01#8 else 0x00#8) }

/-- A command with the list of a poll, from acceptance to its end. -/
theorem runsTo_of_pollOps {i : Instr} {x : AddrSrc} {a : Addr7} {s : State} (hprog : prog i = pollOps x) (hready : Ready s)
    (haccept : acceptEffects i s = .ok s) (hx : readAddress x s = some a) : RunsTo i s s (polled (encode i) a s) := by
  obtain ⟨hblock, hopen, hfree, hidle⟩ := hready
  have hne : prog i ≠ [] := by simp [hprog, pollOps, addressOps]
  have hops := runOps_pollOps ⟨hopen, hidle⟩ hfree hx
  exact run_command (decode_encode i) hblock haccept hne hblock.1 (hprog ▸ hops)

/-! ### The commands -/

/-- Settles O32: a read of two offset bytes after the bank is selected. -/
theorem ee17ReadRunsToItsEnd : Obligations.Ee17ReadRunsToItsEnd := by
  rintro off a a' s hready ha rfl
  exact runsTo_of_readOps (i := .ee17Read off) (x := .ee17) (bytes := [hi17 off, lo17 off]) rfl hready
    (selectBank_of_written ha) hready rfl

/-- Settles O33: a write of two offset bytes and the data byte after the bank is selected. -/
theorem ee17WriteRunsToItsEnd : Obligations.Ee17WriteRunsToItsEnd := by
  rintro off v a a' s hready ha rfl
  exact runsTo_of_writeOps (i := .ee17Write off v) (x := .ee17) (bytes := [hi17 off, lo17 off, v]) rfl hready
    (selectBank_of_written ha) hready rfl

/-- Settles O34: both commands have the list of a poll. -/
theorem writeBusyPollsReturnTheAcknowledge : Obligations.WriteBusyPollsReturnTheAcknowledge :=
  fun _ _ hready =>
    ⟨fun ha => runsTo_of_pollOps (i := .ee17IsWriteBusy) (x := .ee17) rfl hready (needAddress_of_written ha) ha,
     fun ha => runsTo_of_pollOps (i := .ee12IsWriteBusy) (x := .ee12) rfl hready (needAddress_of_written ha) ha⟩

/-- Settles O35: a read of two offset bytes. -/
theorem ee12ReadRunsToItsEnd : Obligations.Ee12ReadRunsToItsEnd :=
  fun off _ _ hready ha =>
    runsTo_of_readOps (i := .ee12Read off) (x := .ee12) (bytes := [hi12 off, lo12 off]) rfl hready
      (needAddress_of_written ha) hready ha

/-- Settles O36: a write of two offset bytes and the data byte. -/
theorem ee12WriteRunsToItsEnd : Obligations.Ee12WriteRunsToItsEnd :=
  fun off v _ _ hready ha =>
    runsTo_of_writeOps (i := .ee12Write off v) (x := .ee12) (bytes := [hi12 off, lo12 off, v]) rfl hready
      (needAddress_of_written ha) hready ha

/-- Settles O44: the runs of both commands, with the address that the recomputed bank bit makes. -/
theorem ee17AddressBytesFollowTheOffset : Obligations.Ee17AddressBytesFollowTheOffset := by
  intro p old off v s hready hsa
  have haddr := (withBank_append s.cfg.famEE old (bank17 off) p).symm
  obtain ⟨hread, hreadRun⟩ := ee17ReadRunsToItsEnd off _ _ s hready hsa haddr
  obtain ⟨hwrite, hwriteRun⟩ := ee17WriteRunsToItsEnd off v _ _ s hready hsa haddr
  exact ⟨⟨_, _, _, _, hread, hreadRun, ⟨_, _, _, _, _, rfl⟩, rfl, rfl⟩,
    ⟨_, _, _, hwrite, hwriteRun, ⟨_, _, _, _, rfl⟩, rfl⟩⟩

/-! ### The polling loop -/

/-- A run that goes on. -/
theorem run_add {m n : Nat} {s t : State} (h : Host.Core.run Sys2Proof.core m s = .next t) :
    Host.Core.run Sys2Proof.core (m + n) s = Host.Core.run Sys2Proof.core n t := by
  induction m generalizing s with
  | zero =>
    cases h
    rw [Nat.zero_add]
  | succ m ih =>
    simp only [Host.Core.run] at h
    split at h
    next u hstep => rw [Nat.succ_add, run_succ hstep, ih h]
    next => cases h
    next => cases h

/-- A command without acceptance effects, presented once and run to its end by listed moves (30_encoding.md R102, log 3). -/
theorem run_presentAndRun {i : Instr} {s u : State} {ms : List Move} (hidle : Idle s)
    (hs : s.sched = presentAndRun (encode i) (prog i).length ++ ms)
    (hruns : ∀ ms, RunsTo i (withSched ms s) (withSched ms s) (withSched ms u)) :
    Host.Core.run Sys2Proof.core ((prog i).length + 1) s = .next (withSched ms u) := by
  have hpresent := presentWord_command (s := withSched (List.replicate (prog i).length .block ++ ms) s) hidle
    (decode_encode i)
  obtain ⟨haccept, -⟩ := hruns (List.replicate (prog i).length .block ++ ms)
  rw [run_succ ((step_present hs).trans (hpresent.trans haccept))]
  exact run_of_runBlock _ rfl (hruns ms).2

/-- After a poll the next one can start. -/
theorem ready_polled {w : Word} {a : Addr7} {s : State} {ms : List Move} (hready : Ready s) :
    Ready (withSched ms (polled w a s)) := by
  obtain ⟨⟨hfault, -⟩, hopen, -, hidle⟩ := hready
  exact ⟨⟨hfault, rfl⟩, hopen, rfl, hidle⟩

/-- A poll is one of the address bytes for which the device withholds its acknowledge (20_memory.md R71). -/
theorem acksAfter_polled {n : Nat} {w : Word} {a : Addr7} {s : State} {ms : List Move} (h : AcksAfter (n + 1) s) :
    AcksAfter n (withSched ms (polled w a s)) := by
  obtain ⟨hnacks, hack⟩ := h
  have hanswer (k : Nat) : answerAt (withSched ms (polled w a s)) k = answerAt s (k + 1) :=
    (answerAt_drawn 1 k s).trans (by rw [Nat.add_comm])
  exact ⟨fun k hk => by rw [hanswer]; exact hnacks (k + 1) (by omega), by rw [hanswer]; exact hack⟩

/-- One turn of the host's loop. -/
theorem run_poll {s : State} {a : Addr7} {ms : List Move} (hready : Ready s) (ha : s.ee17Sa = some a)
    (hs : s.sched = presentAndRun 0x4C000000#32 4 ++ ms) :
    Host.Core.run Sys2Proof.core 5 s = .next (withSched ms (polled 0x4C000000#32 a s)) :=
  run_presentAndRun (i := .ee17IsWriteBusy) hready.1 hs fun ms =>
    (writeBusyPollsReturnTheAcknowledge a (withSched ms s) hready).1 ha

/-- Settles O45, by induction on the number of polls: the first of several polls leaves a device that withholds its acknowledge
once less. -/
theorem pollingLoopEndsAtTheFirstAcknowledge : Obligations.PollingLoopEndsAtTheFirstAcknowledge := by
  intro n k
  induction k generalizing n with
  | zero =>
    intro s a ms hready ha hacks _ hs
    obtain ⟨hnacks, hack⟩ := hacks
    refine ⟨_, run_poll hready ha (by simpa using hs), ready_polled hready, rfl, ?_⟩
    cases n with
    | zero => simp [withSched, polled, hack]
    | succ n => simp [withSched, polled, hnacks 0 (by omega)]
  | succ k ih =>
    intro s a ms hready ha hacks hk hs
    cases n with
    | zero => exact absurd hk (by omega)
    | succ n =>
      have hfirst := run_poll hready ha (ms := (List.replicate (k + 1) (presentAndRun 0x4C000000#32 4)).flatten ++ ms)
        (by rw [hs, List.replicate_succ, List.flatten_cons, List.append_assoc])
      obtain ⟨u, hrun, hu⟩ := ih n _ a ms (ready_polled hready) ha (acksAfter_polled hacks) (by omega) rfl
      have hsteps : 5 * (k + 1 + 1) = 5 + 5 * (k + 1) := by omega
      refine ⟨u, ?_, by simpa using hu⟩
      rw [hsteps, run_add hfirst, hrun]

end Sys2Proof.Proofs
end

section
/-! The RTC-style driver and the GPIO expander (42_rtc.md R181 to R189, 43_gpio_expander.md R201, R202): the reads and writes of
one register, the pull into the cache, the halt-bit envelopes and the push composed of them, and the two cache commands. -/

namespace Sys2Proof.Proofs

open Sys2Proof.Machine Sys2Proof.Laws Sys2Proof.Claims

/-! ### One register of a slave -/

/-- Settles O37: both commands have the list of a read of one index byte. -/
theorem registerReadsRunToTheirEnd : Obligations.RegisterReadsRunToTheirEnd :=
  fun reg _ _ hready =>
    ⟨fun ha => runsTo_of_readOps (i := .rtcRead reg) (x := .rtc) (bytes := [reg]) rfl hready (needAddress_of_written ha)
        hready ha,
     fun ha => runsTo_of_readOps (i := .gpxRead reg) (x := .gpx) (bytes := [reg]) rfl hready (needAddress_of_written ha)
        hready ha⟩

/-- Settles O38: both commands have the list of a write of the index byte and the data byte. -/
theorem registerWritesRunToTheirEnd : Obligations.RegisterWritesRunToTheirEnd :=
  fun reg v _ _ hready =>
    ⟨fun ha => runsTo_of_writeOps (i := .rtcWrite reg v) (x := .rtc) (bytes := [reg, v]) rfl hready
        (needAddress_of_written ha) hready ha,
     fun ha => runsTo_of_writeOps (i := .gpxWrite reg v) (x := .gpx) (bytes := [reg, v]) rfl hready
        (needAddress_of_written ha) hready ha⟩

/-! ### Bytes sent from the block's registers -/

/-- Bytes sent in order from their sources: a parameter, a cache entry or `SEQ_TMP` (30_encoding.md R97). -/
def sourceOps (es : List ByteSrc) : List MicroOp := es.map .sb

/-- Each source holds its byte in `s`. -/
abbrev Hold (s : State) (es : List ByteSrc) (bytes : List Byte) : Prop :=
  List.Forall₂ (fun e b => readByte e s = some b) es bytes

/-- Sending bytes changes no register that a source reads. -/
theorem readByte_sending (e : ByteSrc) (k : Nat) (events : List WireEvent) (s : State) :
    readByte e (sending k events s) = readByte e s := by
  cases e <;> rfl

/-- Sources are as good as the bytes they hold. -/
theorem runOps_sourceOps {es : List ByteSrc} {bytes : List Byte} {s : State} (hs : Signals s) (h : Hold s es bytes) (k : Nat)
    (events : List WireEvent) :
    runOps (sourceOps es) (sending k events s) = runOps (sendOps bytes) (sending k events s) := by
  induction h generalizing k events with
  | nil => rfl
  | @cons e b es bytes he _ ih =>
    have hread : readOperands (.sb e) (sending k events s) = some (.sendByte b) := by
      simp [readOperands, readByte_sending, he]
    calc runOps (sourceOps (e :: es)) (sending k events s)
        = runOps (sourceOps es) (perform (.sendByte b) (sending k events s)) := runOps_cons (sourceOps es) hs rfl hread
      _ = runOps (sendOps bytes) (perform (.sendByte b) (sending k events s)) := by rw [perform_sendByte_sending, ih]
      _ = runOps (sendOps (b :: bytes)) (sending k events s) :=
          (runOps_cons (s := sending k events s) (u := .sb (.word b)) (sendOps bytes) hs rfl rfl).symm

/-- `s` after a transaction that has run to its end, as part of the command in progress: `n` answers are drawn, the latch holds the
acknowledge of draw `k`, `events` are added. -/
abbrev released (n k : Nat) (events : List WireEvent) (s : State) : State :=
  { drawn n s with
    phase := .free, sclO := 1#1, sdaO := 1#1, ackl := some (answerAt s k).ack, trace := s.trace ++ events }

/-- A write envelope whose bytes come from sources does what a driver's write of those bytes does. -/
theorem runOps_writeEnvelope {x : AddrSrc} {a : Addr7} {es : List ByteSrc} {bytes : List Byte} {s : State} (hs : Signals s)
    (hfree : s.phase = .free) (hx : readAddress x s = some a) (h : Hold s es bytes) :
    runOps (addressOps x ++ sourceOps es ++ [.stop]) s
      = some (released (bytes.length + 1) bytes.length
          (.start :: addr s a .write 0 :: sentEvents s 1 bytes ++ [.stop]) s) := by
  rw [← runOps_writeOps bytes hs hfree hx]
  simp only [writeOps, runOps_append, runOps_addressOps hs hfree hx, Option.bind_some, runOps_sourceOps hs h]

/-! ### A read of one index byte -/

/-- The list of a read up to its first receive: START, the address+W byte, the index byte from `e`, RESTART, the address+R
byte. -/
def indexOps (e : ByteSrc) : List MicroOp := addressOps .rtc ++ sourceOps [e] ++ [.restart, .sa .rtc .read]

/-- Bytes received into cache entries, each acknowledged. -/
def pullOps (entries : List (Fin 8)) : List MicroOp := entries.flatMap fun i => [.rcv (.cache i), .ack 0#1]

/-- The last byte of a read, received into `d`. -/
def lastOps (d : Dest) : List MicroOp := [.rcv d, .ack 1#1, .stop]

/-- `s` with a read of one index byte under way: `n` answers are drawn, that of draw 2 for the address+R byte, `events` are added,
and the slave's next byte can be received. The bytes received so far have left `rxb` and `rtcc`. -/
abbrev reading (n : Nat) (rxb : Option Byte) (rtcc : Vector (Option Byte) 8) (events : List WireEvent) (s : State) : State :=
  { drawn n s with
    phase := .rxReady, sclO := 0#1, sdaO := 1#1, ackl := some (answerAt s 2).ack, rxb := rxb, rtcc := rtcc,
    trace := s.trace ++ events }

theorem runOps_indexOps {e : ByteSrc} {b : Byte} {a : Addr7} {s : State} (hs : Signals s) (hfree : s.phase = .free)
    (ha : s.rtcSa = some a) (he : readByte e s = some b) :
    runOps (indexOps e) s
      = some (reading 3 s.rxb s.rtcc [.start, addr s a .write 0, sent s b 1, .restart, addr s a .read 2] s) := by
  have hread : ∀ events, readOperands (.sa .rtc .read) (perform .restart (sending 1 events s)) = some (.sendAddress a .read) :=
    fun _ => congrArg (Option.map _) ha
  rw [indexOps, runOps_append, runOps_append, runOps_addressOps (x := .rtc) hs hfree ha, Option.bind_some,
    runOps_sourceOps hs (.cons he .nil), runOps_sendOps [b] hs, Option.bind_some,
    runOps_cons (s := sending (0 + [b].length) _ s) (p := .restart) _ hs rfl rfl,
    runOps_cons (s := perform .restart (sending (0 + [b].length) _ s)) _ hs rfl (hread _)]
  simp [runOps, perform, emit_eq, levelsAfter, phaseAfterAddress, sentEvents, answerAt]

/-- One more entry of the cache. -/
theorem runOps_pull {n : Nat} {rxb : Option Byte} {rtcc : Vector (Option Byte) 8} {events : List WireEvent} {s : State}
    (hs : Signals s) (i : Fin 8) (us : List MicroOp) :
    runOps (.rcv (.cache i) :: .ack 0#1 :: us) (reading n rxb rtcc events s)
      = runOps us
          (reading (n + 1) (some (got s n)) (rtcc.set i.val (some (got s n)) i.isLt) (events ++ [.rx (got s n), .ma 0#1]) s) := by
  have hgot : answerAt (reading n rxb rtcc events s) 0 = answerAt s n := answerAt_drawn n 0 s
  have hpull : perform (.sendAck 0#1) (perform (.receive (.cache i)) (reading n rxb rtcc events s))
      = reading (n + 1) (some (got s n)) (rtcc.set i.val (some (got s n)) i.isLt)
          (events ++ [.rx (got s n), .ma 0#1]) s := by
    simp [perform, emit_eq, levelsAfter, phaseAfterAck, writeDest, cachePut, hgot, Nat.add_assoc]
  rw [← hpull, runOps_cons (s := reading n rxb rtcc events s) (p := .receive (.cache i)) _ hs rfl rfl,
    runOps_cons (s := perform (.receive (.cache i)) (reading n rxb rtcc events s)) (p := .sendAck 0#1) us hs rfl rfl]

/-- The last byte of a read, and the bus released. -/
theorem runOps_lastOps {n : Nat} {rxb : Option Byte} {rtcc : Vector (Option Byte) 8} {events : List WireEvent} {s : State}
    (hs : Signals s) (d : Dest) :
    runOps (lastOps d) (reading n rxb rtcc events s)
      = some (writeDest d (got s n)
          { reading (n + 1) (some (got s n)) rtcc (events ++ [.rx (got s n), .ma 1#1, .stop]) s with
            phase := .free, sclO := 1#1, sdaO := 1#1 }) := by
  have hgot : answerAt (reading n rxb rtcc events s) 0 = answerAt s n := answerAt_drawn n 0 s
  obtain ⟨hopen, hidle⟩ := hs
  rw [lastOps, runOps_cons (s := reading n rxb rtcc events s) (p := .receive d) _ ⟨hopen, hidle⟩ rfl rfl]
  cases d <;>
    simp [runOps, stepOp, legalPhase, readOperands, perform, emit_eq, levelsAfter, phaseAfterAck, writeDest, cachePut, hopen,
      hidle, hgot, Nat.add_assoc]

/-! ### The pull -/

/-- A command whose acceptance writes nothing, from acceptance to its end. -/
theorem runsTo_of_runOps {i : Instr} {s t : State} (hready : Ready s) (haccept : acceptEffects i s = .ok s)
    (hops : runOps (prog i) s = some t) (hne : prog i ≠ []) :
    RunsTo i s s { t with seqCmd := some (encode i), seqPc := 0#6, busy := false } :=
  run_command (decode_encode i) hready.1 haccept hne hready.1.1 hops

/-- The pull: the index byte `RTC_BASE`, entries 0 to 6 acknowledged, and entry 7 as the last byte. -/
theorem runOps_getClock {a : Addr7} {s : State} (hs : Signals s) (hfree : s.phase = .free) (ha : s.rtcSa = some a) :
    runOps rtcGetClockList s
      = some { released 11 2 (pullEvents s a) s with
          rxb := some (got s 10)
          rtcc := #v[some (got s 3), some (got s 4), some (got s 5), some (got s 6), some (got s 7), some (got s 8),
                     some (got s 9), some (got s 10)] } := by
  have hlist : rtcGetClockList = indexOps .rtcBase ++ (pullOps [0, 1, 2, 3, 4, 5, 6] ++ lastOps (.cache 7)) := rfl
  rw [hlist, runOps_append, runOps_indexOps hs hfree ha rfl, Option.bind_some]
  simp only [pullOps, List.flatMap_cons, List.flatMap_nil, List.cons_append, List.nil_append, runOps_pull hs,
    runOps_lastOps hs]
  simp [writeDest, cachePut, ← cache_filled s.rtcc]

/-- Settles O39: the run of the pull's list, whose acceptance only checks the address register. -/
theorem getClockPullsAllEightEntries : Obligations.GetClockPullsAllEightEntries := by
  intro a s hready ha
  have ⟨_, hopen, hfree, hidle⟩ := hready
  exact runsTo_of_runOps (i := .rtcGetClock) hready (needAddress_of_written ha) (runOps_getClock ⟨hopen, hidle⟩ hfree ha)
    (List.cons_ne_nil _ _)

/-! ### The halt bit -/

/-- The state after the read envelope of a clock stop or start: the byte of `CH_REG` is in `RXB` and `SEQ_TMP`. -/
abbrev chRead (a : Addr7) (s : State) : State :=
  { released 4 2 ([.start, addr s a .write 0, sent s s.cfg.chReg 1] ++ readTail s a 2) s with
    rxb := some (got s 3), seqTmp := some (got s 3) }

/-- The state after a clock stop or start that writes `b` back. -/
abbrev chWritten (a : Addr7) (b : Byte) (s : State) : State :=
  { released 7 6 (haltEvents s a 0 b) s with rxb := some (got s 3), seqTmp := some (got s 3) }

theorem runOps_chReadList {a : Addr7} {s : State} (hs : Signals s) (hfree : s.phase = .free) (ha : s.rtcSa = some a) :
    runOps chReadList s = some (chRead a s) := by
  have hlist : chReadList = indexOps .chReg ++ lastOps .seqTmp := rfl
  rw [hlist, runOps_append, runOps_indexOps hs hfree ha rfl, Option.bind_some, runOps_lastOps hs]
  rfl

/-- A clock stop or start: the byte written back is that of the source `e` after the read envelope. -/
theorem runOps_chLists {e : ByteSrc} {a : Addr7} {b : Byte} {s : State} (hs : Signals s) (hfree : s.phase = .free)
    (ha : s.rtcSa = some a) (hb : readByte e (chRead a s) = some b) :
    runOps (chReadList ++ chWriteList e) s = some (chWritten a b s) := by
  have hlist : chWriteList e = addressOps .rtc ++ sourceOps [.chReg, e] ++ [.stop] := rfl
  have hanswer (k : Nat) : answerAt (chRead a s) k = answerAt s (4 + k) := answerAt_drawn 4 k s
  rw [runOps_append, runOps_chReadList hs hfree ha, Option.bind_some, hlist,
    runOps_writeEnvelope (x := .rtc) (s := chRead a s) hs rfl ha (.cons rfl (.cons hb .nil))]
  simp [sentEvents, hanswer, Nat.add_assoc]

/-- Settles O40: a clock stop writes back the byte of `SEQ_TMP` with the halt bit set. -/
theorem stopClockSetsTheHaltBit : Obligations.StopClockSetsTheHaltBit := by
  intro a s hready ha
  have ⟨_, hopen, hfree, hidle⟩ := hready
  exact runsTo_of_runOps (i := .rtcStopClock) hready (needAddress_of_written ha)
    (runOps_chLists (e := .tmpHalted) ⟨hopen, hidle⟩ hfree ha rfl) (List.cons_ne_nil _ _)

/-- Settles O41: a clock start writes back the byte of `SEQ_TMP` with the halt bit cleared. -/
theorem startClockClearsTheHaltBit : Obligations.StartClockClearsTheHaltBit := by
  intro a s hready ha
  have ⟨_, hopen, hfree, hidle⟩ := hready
  exact runsTo_of_runOps (i := .rtcStartClock) hready (needAddress_of_written ha)
    (runOps_chLists (e := .tmpRunning) ⟨hopen, hidle⟩ hfree ha rfl) (List.cons_ne_nil _ _)

/-! ### The push -/

/-- The entries that the push sends hold the bytes `c 0` to `c 6`. -/
abbrev Pushes (c : Fin 8 → Byte) (s : State) : Prop := ∀ i : Fin 8, i.val < 7 → cacheAt s i = some (c i)

theorem setClockEffects_of_pushes {a : Addr7} {c : Fin 8 → Byte} {s : State} (ha : s.rtcSa = some a) (hc : Pushes c s) :
    rtcSetClockEffects s = .ok s := by
  have hpushable : pushable s = true := by simp [pushable, hc]
  simp [rtcSetClockEffects, ha, hpushable]

/-- The state after the burst write. -/
abbrev burstWritten (a : Addr7) (c : Fin 8 → Byte) (s : State) : State := released 9 8 (burstEvents s a 0 c) s

theorem runOps_burstWriteList {a : Addr7} {c : Fin 8 → Byte} {s : State} (hs : Signals s) (hfree : s.phase = .free)
    (ha : s.rtcSa = some a) (hc : Pushes c s) : runOps burstWriteList s = some (burstWritten a c s) := by
  have hlist : burstWriteList = addressOps .rtc
      ++ sourceOps [.rtcBase, .cache 0, .cache 1, .cache 2, .cache 3, .cache 4, .cache 5, .cache 6] ++ [.stop] := rfl
  have hhold : Hold s [.rtcBase, .cache 0, .cache 1, .cache 2, .cache 3, .cache 4, .cache 5, .cache 6]
      [s.cfg.rtcBase, c 0, c 1, c 2, c 3, c 4, c 5, c 6] := by
    simp [readByte, hc]
  rw [hlist, runOps_writeEnvelope (x := .rtc) hs hfree ha hhold]
  rfl

/-- The push as a clock stop, the burst and a clock start: each part leaves the bus free and the cache as it was, so the next one
starts from the state it leaves, 7 and 16 draws on. -/
theorem runOps_setClock {a : Addr7} {c : Fin 8 → Byte} {s : State} (hs : Signals s) (hfree : s.phase = .free)
    (ha : s.rtcSa = some a) (hc : Pushes c s) :
    runOps rtcSetClockList s
      = some { released 23 22
            (haltEvents s a 0 (got s 3 ||| chMask s.cfg) ++ burstEvents s a 7 c
              ++ haltEvents s a 16 (got s 19 &&& ~~~(chMask s.cfg))) s with
          rxb := some (got s 19), seqTmp := some (got s 19) } := by
  let s1 := chWritten a (got s 3 ||| chMask s.cfg) s
  let s2 := burstWritten a c s1
  have hstop : runOps rtcStopClockList s = some s1 := runOps_chLists (e := .tmpHalted) hs hfree ha rfl
  have hburst : runOps burstWriteList s1 = some s2 := runOps_burstWriteList hs rfl ha hc
  have hstart : runOps rtcStartClockList s2 = some (chWritten a (got s2 3 &&& ~~~(chMask s.cfg)) s2) :=
    runOps_chLists (e := .tmpRunning) hs rfl ha rfl
  have hanswer1 (k : Nat) : answerAt s1 k = answerAt s (7 + k) := answerAt_drawn 7 k s
  have hanswer2 (k : Nat) : answerAt s2 k = answerAt s (16 + k) := by
    have hdrawn : answerAt s2 k = answerAt s1 (9 + k) := answerAt_drawn 9 k s1
    rw [hdrawn, hanswer1, ← Nat.add_assoc]
  rw [rtcSetClockList, runOps_append, runOps_append, hstop, Option.bind_some, hburst, Option.bind_some, hstart]
  simp only [chWritten, haltEvents, addr, sent, got, hanswer2]
  simp only [s2, burstWritten, burstEvents, addr, sent, hanswer1]
  simp [s1]

/-- Settles O42: the run of the push's list, accepted because every entry it sends is written. -/
theorem setClockPushesSevenEntries : Obligations.SetClockPushesSevenEntries := by
  intro a c s hready ha hc
  have ⟨_, hopen, hfree, hidle⟩ := hready
  exact runsTo_of_runOps (i := .rtcSetClock) hready (setClockEffects_of_pushes ha hc)
    (runOps_setClock ⟨hopen, hidle⟩ hfree ha hc) (List.cons_ne_nil _ _)

/-! ### The cache commands -/

theorem encode_rtcCacheGet (idx : BitVec 3) : encode (.rtcCacheGet idx) = 0x7C000000#32 ||| idx.setWidth 32 := by
  have hcode : Opcode.rtcCacheGet.matchBits = 0x7C000000#32 := rfl
  rw [encode, Instr.opcode, Instr.operandBits, hcode, fieldAt_zero]

theorem encode_rtcCachePut (idx : BitVec 3) (v : Byte) :
    encode (.rtcCachePut idx v) = 0x80000000#32 ||| idx.setWidth 32 <<< 8 ||| v.setWidth 32 := by
  have hcode : Opcode.rtcCachePut.matchBits = 0x80000000#32 := rfl
  rw [encode, Instr.opcode, Instr.operandBits, hcode, fieldAt_zero, fieldAt, BitVec.or_assoc]

/-- `RTC_CACHE_GET` of a written entry. -/
theorem exec_cacheGet_written {idx : BitVec 3} {v : Byte} {s : State} (hidle : Idle s)
    (hv : cacheAt s idx.toFin = some v) : exec (.rtcCacheGet idx) s = .next { s with rsp := some v } :=
  exec_local hidle rfl (by simp [acceptEffects, cacheGetEffects, cacheIndex, hv])

/-- Settles O29: the command is local, and its effects are those of the entry. -/
theorem cacheGetReturnsTheEntry : Obligations.CacheGetReturnsTheEntry := by
  intro idx s hidle
  refine ⟨encode_rtcCacheGet idx, fun v hv => exec_cacheGet_written hidle hv, fun hnone => ?_⟩
  have hfaults : acceptEffects (.rtcCacheGet idx) s = .error .unwritten := by
    simp [acceptEffects, cacheGetEffects, cacheIndex, hnone]
  rw [exec_idle _ hidle, accept_error hfaults, raise_first .unwritten _ s hidle.1]

/-- Settles O30: the command is local and its effect is `cachePut`. -/
theorem cachePutWritesOneEntry : Obligations.CachePutWritesOneEntry := by
  intro idx v s hidle
  have hself := cacheAt_cachePut_self idx.toFin v s
  exact ⟨encode_rtcCachePut idx v, cachePut idx.toFin v s, exec_local hidle rfl rfl, hself,
    fun j hj => cacheAt_cachePut_other idx.toFin j v s hj, rfl,
    exec_cacheGet_written (s := cachePut idx.toFin v s) hidle hself⟩

end Sys2Proof.Proofs
end

section
/-! Faults and the hang (60_exceptions.md R211, R212, R215, R219): what raises a fault before a micro-operation runs, what a block
with a fault still does, and that a hang never ends by itself. -/

namespace Sys2Proof.Proofs

open Sys2Proof.Machine Sys2Proof.Laws Sys2Proof.Claims

/-! ### Illegal words -/

/-- The mask is tested only once the opcode has a row (30_encoding.md R92). -/
theorem decode_eq_unknownOpcode_iff (w : Word) :
    decode w = .error .unknownOpcode ↔ Opcode.ofCode (w.extractLsb' 26 6) = none := by
  unfold decode
  cases Opcode.ofCode (w.extractLsb' 26 6) with
  | none => simp
  | some o => by_cases hmask : w &&& o.mask = o.matchBits <;> simp [hmask]

/-- The opcodes of 30_encoding.md R107: a check of the 64. -/
theorem ofCode_eq_none_iff : ∀ c : BitVec 6, Opcode.ofCode c = none ↔
    (c = 0x00#6 ∨ (0x0A#6 ≤ c ∧ c ≤ 0x0F#6) ∨ (0x21#6 ≤ c ∧ c ≤ 0x23#6) ∨ 0x27#6 ≤ c) := by
  decide

/-- Settles O5: the opcodes without a row, and the third case of the acceptance. -/
theorem illegalWordsFaultWithoutEffect : Obligations.IllegalWordsFaultWithoutEffect := by
  refine ⟨fun w => (decode_eq_unknownOpcode_iff w).trans (ofCode_eq_none_iff _), fun s w ms e hs hidle hd => ?_⟩
  obtain ⟨-, -, hillegal, -⟩ := acceptanceTakesTheFirstCase s _ w ms hs rfl
  exact hillegal hidle e hd

/-! ### The stopped block -/

/-- While a fault stands a move other than reset changes at most `PORT_IDLE`. -/
theorem takeMove_stopped {m : Move} {s : State} (hf : s.fault ≠ .noFault) (hm : m ≠ .reset) :
    ∃ level, takeMove m s = .next { s with portIdle := level } := by
  cases m with
  | present w => exact ⟨s.portIdle, if_pos hf⟩
  | block => exact ⟨s.portIdle, blockStep_stopped hf⟩
  | portIdle level => exact ⟨level, rfl⟩
  | reset => exact absurd rfl hm

/-- Settles O13: the next move is the listed one, or the block's (log 4). -/
theorem faultedBlockIsStoppedUntilReset : Obligations.FaultedBlockIsStoppedUntilReset := by
  intro s hf hnext
  have hm : s.sched.headD .block ≠ .reset := by
    cases hs : s.sched with
    | nil => exact nofun
    | cons m ms => simpa [hs] using hnext
  obtain ⟨level, h⟩ := takeMove_stopped (s := { s with sched := s.sched.tail }) hf hm
  exact ⟨_, (step_eq_takeMove s).trans h, rfl⟩

/-! ### The hang -/

/-- A state that a step leaves as it is stays for ever. -/
theorem run_of_step_self {s : State} (h : step s = .next s) (n : Nat) : Host.Core.run Sys2Proof.core n s = .next s := by
  induction n with
  | zero => rfl
  | succ n ih => rw [run_succ h, ih]

/-- Settles O17: the step of the waiting block is the hold of its micro-operation. -/
theorem hangLastsForEver : Obligations.HangLastsForEver := by
  intro s i u p n hs hl hopen hlegal hp hidle hsched
  apply run_of_step_self
  calc step s = blockStep s := step_nil hsched
    _ = exec i s := blockStep_latched hs.1 hs.2.1 hl
    _ = .next s := exec_waits hs hopen hlegal hp hidle

/-! ### Unwritten registers -/

/-- A fault of the acceptance effects is the command's only effect (30_encoding.md R93, 60_exceptions.md R211). -/
theorem exec_faultsAtAcceptance {i : Instr} {c : FaultCode} {s : State} (hidle : Idle s) (he : acceptEffects i s = .error c) :
    exec i s = .next (faulted c (encode i) s) := by
  rw [exec_idle i hidle, accept_error he, raise_first c _ s hidle.1]

theorem needAddress_of_unwritten {x : State → Option Addr7} {s : State} (h : x s = none) :
    needAddress x s = .error .unwritten := by
  simp [needAddress, h]

theorem selectBank_of_unwritten {off : BitVec 17} {s : State} (h : s.ee17Sa = none) :
    ee17SelectBank off s = .error .unwritten := by
  simp [ee17SelectBank, h]

theorem setClockEffects_of_unwrittenAddress {s : State} (h : s.rtcSa = none) :
    rtcSetClockEffects s = .error .unwritten := by
  simp [rtcSetClockEffects, h]

/-- The entries that the push sends are those below 7 (42_rtc.md R185). -/
theorem pushable_iff (s : State) : pushable s = true ↔ ∀ j : Fin 8, j.val < 7 → (cacheAt s j).isSome = true := by
  have hentries : ∀ j : Fin 8, j ∈ [0, 1, 2, 3, 4, 5, 6] ↔ j.val < 7 := by decide
  simp only [pushable, List.all_eq_true, hentries]

theorem setClockEffects_of_unwrittenEntry {s : State} {j : Fin 8} (hj : j.val < 7) (h : cacheAt s j = none) :
    rtcSetClockEffects s = .error .unwritten := by
  have hpush : ¬ pushable s = true := fun hp => by simpa [h] using (pushable_iff s).mp hp j hj
  cases hsa : s.rtcSa with
  | none => exact setClockEffects_of_unwrittenAddress hsa
  | some a => simp [rtcSetClockEffects, hsa, hpush]

/-- Every driver command that uses the bus checks its own address register at acceptance. -/
theorem acceptEffects_of_unwrittenAddress {i : Instr} {s : State} {x : State → Option Addr7}
    (hi : addressRegister i.opcode = some x) (hx : x s = none) : acceptEffects i s = .error .unwritten := by
  cases i with
  | ee17Read | ee17Write => cases hi; exact selectBank_of_unwritten hx
  | rtcSetClock => cases hi; exact setClockEffects_of_unwrittenAddress hx
  | ee17IsWriteBusy | ee12Read | ee12Write | ee12IsWriteBusy | rtcRead | rtcWrite | rtcGetClock | rtcStopClock
  | rtcStartClock | gpxRead | gpxWrite => cases hi; exact needAddress_of_unwritten hx
  | busOpen | busBegin | busRepeatBegin | busEnd | sendAddress | sendByte | receiveByte | sendAck | readAck | ee17Init
  | ee12Init | rtcInit | gpxInit | rtcCacheGet | rtcCachePut => cases hi

/-- Settles O31: in both clauses the acceptance effects fault. -/
theorem driverCommandsNeedTheirRegisters : Obligations.DriverCommandsNeedTheirRegisters :=
  ⟨fun _ _ _ hidle hi hx => exec_faultsAtAcceptance hidle (acceptEffects_of_unwrittenAddress hi hx),
    fun _ _ hidle hj h => exec_faultsAtAcceptance (i := .rtcSetClock) hidle (setClockEffects_of_unwrittenEntry hj h)⟩

end Sys2Proof.Proofs
end

section
/-! Fixed words of 95_test_vectors.md section 2.1: what they decode to, by the laws of the encoding. -/

namespace Sys2Proof.Proofs

/-- A word with an opcode of R96 is rejected exactly where it fails that row's test (30_encoding.md R92). -/
theorem decode_eq_mustBeZeroSet_iff (w : Word) :
    decode w = .error .mustBeZeroSet ↔
      ∃ o, Opcode.ofCode (w.extractLsb' 26 6) = some o ∧ w &&& o.mask ≠ o.matchBits := by
  unfold decode
  cases Opcode.ofCode (w.extractLsb' 26 6) with
  | none => simp
  | some o => by_cases hmask : w &&& o.mask = o.matchBits <;> simp [hmask]

/-- Settles O4: each legal word is the encoding of its command; of the other two, one fails the test of its row and one has no
row. -/
theorem sampleWordsDecode : Obligations.SampleWordsDecode :=
  ⟨decode_encode (.busOpen 0x01#8), decode_encode (.sendAddress 0x50#7 .read), decode_encode (.sendAck 1#1),
    decode_encode (.ee17Write 0x1ABCD#17 0x5A#8), decode_encode (.ee12Read 0xABC#12),
    decode_encode (.rtcWrite 0x07#8 0x10#8), decode_encode (.rtcCachePut 7#3 0xFF#8),
    decode_encode (.gpxWrite 0x00#8 0xFF#8),
    (decode_eq_mustBeZeroSet_iff _).mpr ⟨.sendAddress, rfl, by decide⟩,
    (decode_eq_unknownOpcode_iff _).mpr rfl⟩

end Sys2Proof.Proofs
end
